-- ==== Sys2Proof/Word.lean ====
section
/-! DEFINITION. The two word types of the machine (spec/00_scope.md R5, R6). -/

namespace Sys2Proof

/-- A memory cell, a register, an opcode or an operand: "All register and memory values are unsigned
integers in 0..255" (R6; `CELL_BITS`, `XLEN` of R5). -/
abbrev Byte := BitVec 8

/-- The width of the program counter and of `fault_info`: 9 bits (R10, R14; decision D4). -/
abbrev PcWord := BitVec 9

end Sys2Proof
end

