-- ==== Sys2Proof/Config.lean ====
section
/-! DEFINITION. The parameters of spec/00_scope.md R5, and the one thing the spec leaves open to the
host, the format of the debug trace (R150, decision D21). -/

namespace Sys2Proof

/-- `MEM_SIZE`: the number of memory cells (R5). -/
def Config.memSize : Nat := 256

/-- `SP_INDEX`: the register that is the stack pointer (R5, R13). -/
def Config.spIndex : Fin 8 := 7

/-- `SP_RESET`: the reset value of SP, and the empty-stack sentinel that POP tests (R5, R37, R111). -/
def Config.spReset : Byte := 0xF4

/-- `PC_RESET`: the address of the first opcode fetched after reset (R5, R161). -/
def Config.pcReset : PcWord := 0

/-- `LOAD_BASE`: the address of the first program byte (R5, R163). -/
def Config.loadBase : Nat := 0

/-- What a cell reads as that nothing has written: reset leaves every cell 0x00 (R20, R161). -/
def Config.memReset : Byte := 0x00

/-- The nine opcode bytes as parameters: "A model may take the nine `OPC_*` values as arguments; every
rule of this spec is written against the names" (R5, decision D1). Which assignments are legal is
`OpcodeMap.Valid` (R56). -/
structure OpcodeMap where
  hlt  : Byte
  ldi  : Byte
  prn  : Byte
  mul  : Byte
  add  : Byte
  push : Byte
  pop  : Byte
  call : Byte
  ret  : Byte
  deriving DecidableEq, Repr

/-- PRESUMED (log 1): the default opcode bytes of R5 and R55. The spec takes them from general knowledge
(decision D1, G1); unsafe for a machine with other bytes. -/
def Config.opcodes : OpcodeMap where
  hlt  := 0x01
  ldi  := 0x82
  prn  := 0x47
  mul  := 0xA2
  add  := 0xA0
  push := 0x45
  pop  := 0x46
  call := 0x50
  ret  := 0x11

/-- What the debug trace shows (R150): "PC, the next three memory bytes, and all 8 registers". A byte is
`none` where its address is past 255, because the spec does not say what the trace shows there. -/
structure TraceRecord where
  pc    : PcWord
  bytes : List (Option Byte)
  regs  : Vector Byte 8
  deriving DecidableEq, Repr

/-- `trace_format`, the parameter decision D21 leaves `OPEN`: the text of one trace line. A free value
(log 8): it has no body, so nothing can be proved of the text. -/
opaque Config.traceFormat : TraceRecord → String

end Sys2Proof
end

