-- ==== Sys2Proof/Syntax.lean ====
section
/-! DEFINITION. The instructions: one constructor per row of spec/opcode_table.json (R55). -/

namespace Sys2Proof

/-- An operand byte used as a register index. It is any byte: "All 8 bits are compared: the index is not
masked to 3 bits, and a value 8..255 raises `BoundsFault(value)`" (R53). -/
abbrev RegOperand := Byte

/-- The rows of the dispatch table, in the table's order (R55). -/
inductive Mnemonic where
  | hlt | ldi | prn | mul | add | push | pop | call | ret
  deriving DecidableEq, Repr

/-- An instruction with its operand bytes `operand_a`, `operand_b` as fetched (R53, R54). -/
inductive Instr where
  /-- `HLT` (R78). -/
  | hlt
  /-- `LDI Rr,v` (R90). -/
  | ldi (r : RegOperand) (v : Byte)
  /-- `PRN Rr` (R91). -/
  | prn (r : RegOperand)
  /-- `MUL Ra,Rb` (R102). -/
  | mul (a b : RegOperand)
  /-- `ADD Ra,Rb` (R103). -/
  | add (a b : RegOperand)
  /-- `PUSH Rr` (R110). -/
  | push (r : RegOperand)
  /-- `POP Rr` (R111). -/
  | pop (r : RegOperand)
  /-- `CALL Rr` (R120). -/
  | call (r : RegOperand)
  /-- `RET` (R121). -/
  | ret
  deriving DecidableEq, Repr

/-- The row of the dispatch table an instruction belongs to. -/
def Instr.mnemonic : Instr → Mnemonic
  | .hlt => .hlt
  | .ldi _ _ => .ldi
  | .prn _ => .prn
  | .mul _ _ => .mul
  | .add _ _ => .add
  | .push _ => .push
  | .pop _ => .pop
  | .call _ => .call
  | .ret => .ret

/-- The operand bytes in the order of the bytes in memory (R51, R60). -/
def Instr.operands : Instr → List Byte
  | .hlt => []
  | .ldi r v => [r, v]
  | .prn r => [r]
  | .mul a b => [a, b]
  | .add a b => [a, b]
  | .push r => [r]
  | .pop r => [r]
  | .call r => [r]
  | .ret => []

/-- The operand bytes that are register indices, in the order they are checked: `operand_a`, then
`operand_b` (R53, R140). -/
def Instr.regOperands : Instr → List RegOperand
  | .hlt => []
  | .ldi r _ => [r]
  | .prn r => [r]
  | .mul a b => [a, b]
  | .add a b => [a, b]
  | .push r => [r]
  | .pop r => [r]
  | .call r => [r]
  | .ret => []

end Sys2Proof
end

