-- ==== Sys2Proof/WellFormed.lean ====
section
/-! DEFINITION. Which instructions are well formed: every register-index operand is 0..7 (R53, R59). An
ill-formed instruction still decodes; running it raises `BoundsFault`. -/

namespace Sys2Proof

/-- "A register-index operand is valid when it is 0..7" (R53). -/
def RegOperand.valid (r : RegOperand) : Bool := decide (r.toNat ≤ 7)

/-- Every register-index operand is valid; "There is no other illegal operand value" (R59). -/
def Instr.wellFormed (i : Instr) : Bool := i.regOperands.all RegOperand.valid

end Sys2Proof
end

