-- ==== Sys2Proof/Decode.lean ====
section
/-! DEFINITION. The opcode byte's fields, the dispatch key, the decoder and the encoder
(spec/30_encoding.md), over any assignment of the nine opcode bytes. -/

namespace Sys2Proof

/-- Bits 7:6 of the opcode: the number of operand bytes (R50, R72; the mapping wins over the words
"operand count minus one", C7). -/
def opcodeNOps (ir : Byte) : Nat := (ir.extractLsb' 6 2).toNat

/-- `length = n_ops + 1`, in bytes (R50, R72). -/
def opcodeLength (ir : Byte) : Nat := opcodeNOps ir + 1

/-- Bit 4 of the opcode: the handler writes `pc`, and the loop does not advance it (R50, R72). -/
def opcodeSetsPc (ir : Byte) : Bool := ir.getLsbD 4

/-- Every row of the dispatch table (R55). -/
def Mnemonic.all : List Mnemonic := [.hlt, .ldi, .prn, .mul, .add, .push, .pop, .call, .ret]

/-- The operand count of the table's row (R51, R55). -/
def Mnemonic.nOps : Mnemonic → Nat
  | .hlt | .ret => 0
  | .prn | .push | .pop | .call => 1
  | .ldi | .mul | .add => 2

/-- The `sets_pc` column of the table: CALL and RET (R55). -/
def Mnemonic.setsPc : Mnemonic → Bool
  | .call | .ret => true
  | .hlt | .ldi | .prn | .mul | .add | .push | .pop => false

/-- The opcode byte an assignment gives a row. -/
def OpcodeMap.opcode (m : OpcodeMap) : Mnemonic → Byte
  | .hlt => m.hlt
  | .ldi => m.ldi
  | .prn => m.prn
  | .mul => m.mul
  | .add => m.add
  | .push => m.push
  | .pop => m.pop
  | .call => m.call
  | .ret => m.ret

/-- R56: (a) the nine bytes are pairwise distinct, (b) bits 7:6 are the operand count, (c) bit 4 is 1
exactly for CALL and RET. -/
abbrev OpcodeMap.Valid (m : OpcodeMap) : Prop :=
  (∀ k ∈ Mnemonic.all, ∀ k' ∈ Mnemonic.all, m.opcode k = m.opcode k' → k = k') ∧
  (∀ k ∈ Mnemonic.all, opcodeNOps (m.opcode k) = k.nOps) ∧
  (∀ k ∈ Mnemonic.all, opcodeSetsPc (m.opcode k) = k.setsPc)

/-- The dispatch table looked up "by equality on all 8 bits; a hit selects the handler, a miss is an
unknown opcode" (R57). -/
def OpcodeMap.lookup (m : OpcodeMap) (ir : Byte) : Option Mnemonic :=
  Mnemonic.all.find? fun k => m.opcode k == ir

/-- Why bytes are no instruction. -/
inductive DecodeReject where
  /-- There is no opcode byte. -/
  | noOpcode
  /-- The opcode byte is not one of the nine (R58). -/
  | unknownOpcode (ir : Byte)
  /-- An operand byte that bits 7:6 announce is missing (R33, R74). -/
  | missingOperand (ir : Byte)
  /-- Bits 7:6 disagree with the handler's operands: impossible for a legal assignment (R56). -/
  | operandCount (ir : Byte)
  deriving DecidableEq, Repr

/-- Format F0: no operand byte (R51). -/
def buildF0 (i : Instr) : List Byte → Option Instr
  | [] => some i
  | _ :: _ => none

/-- Format F1: `operand_a` (R51). -/
def buildF1 (f : Byte → Instr) : List Byte → Option Instr
  | [] => none
  | a :: rest => buildF0 (f a) rest

/-- Format F2: `operand_a`, `operand_b` (R51). -/
def buildF2 (f : Byte → Byte → Instr) : List Byte → Option Instr
  | [] => none
  | a :: rest => buildF1 (f a) rest

/-- The operand bytes handed to a handler, by the format of its row (R51, R53, R54). -/
def Instr.build (k : Mnemonic) (ops : List Byte) : Option Instr :=
  match k with
  | .hlt => buildF0 .hlt ops
  | .ldi => buildF2 .ldi ops
  | .prn => buildF1 .prn ops
  | .mul => buildF2 .mul ops
  | .add => buildF2 .add ops
  | .push => buildF1 .push ops
  | .pop => buildF1 .pop ops
  | .call => buildF1 .call ops
  | .ret => buildF0 .ret ops

/-- The decode procedure (R57) on the bytes from the opcode on: the instruction and the bytes behind it,
or why there is none. The length comes from bits 7:6 alone. -/
def decodeWith (m : OpcodeMap) : List Byte → Except DecodeReject (Instr × List Byte)
  | [] => .error .noOpcode
  | ir :: rest =>
    match m.lookup ir with
    | none => .error (.unknownOpcode ir)
    | some k =>
      if rest.length < opcodeNOps ir then .error (.missingOperand ir)
      else
        match Instr.build k (rest.take (opcodeNOps ir)) with
        | some i => .ok (i, rest.drop (opcodeNOps ir))
        | none => .error (.operandCount ir)

/-- The decoder of the machine with the default opcode bytes. -/
def decode (bytes : List Byte) : Except DecodeReject (Instr × List Byte) :=
  decodeWith Config.opcodes bytes

/-- The bytes of an instruction at rising addresses: opcode, `operand_a`, `operand_b` (R51, R60). -/
def encodeWith (m : OpcodeMap) (i : Instr) : List Byte := m.opcode i.mnemonic :: i.operands

/-- The encoder with the default opcode bytes. -/
def encode (i : Instr) : List Byte := encodeWith Config.opcodes i

/-- Three bytes (`MAX_INSTR_LEN`, R5) of a table word: bit 0 is bit 0 of the first byte, and every bit from
`nbits` on is 0 (log 7). -/
def wordBytes (nbits w : Nat) : List Byte :=
  let v := w % 2 ^ nbits
  [BitVec.ofNat 8 v, BitVec.ofNat 8 (v / 256), BitVec.ofNat 8 (v / 65536)]

/-- The instruction the decoder reads from a word of the opcode table (log 7). -/
def decodeTableWord (nbits w : Nat) : Option Instr :=
  match decode (wordBytes nbits w) with
  | .ok (i, _) => some i
  | .error _ => none

/-- The assembler name of a register (R11, R60). -/
def RegOperand.assembly (r : RegOperand) : String := "R" ++ toString r.toNat

/-- Assembly as the spec writes it: mnemonic, a space, operands separated by a comma, immediates in
decimal (R60, decision D24). -/
def Instr.assembly : Instr → String
  | .hlt => "HLT"
  | .ldi r v => "LDI " ++ r.assembly ++ "," ++ toString v.toNat
  | .prn r => "PRN " ++ r.assembly
  | .mul a b => "MUL " ++ a.assembly ++ "," ++ b.assembly
  | .add a b => "ADD " ++ a.assembly ++ "," ++ b.assembly
  | .push r => "PUSH " ++ r.assembly
  | .pop r => "POP " ++ r.assembly
  | .call r => "CALL " ++ r.assembly
  | .ret => "RET"

end Sys2Proof
end

