-- ==== Sys2Proof/Machine/State.lean ====
section
/-! DEFINITION. The state as plain data (spec/10_state.md R10), the reasons a step can stop, and the state
after reset (R161). -/

namespace Sys2Proof.Machine

/-- The codes of `fault` (R18, R130; decision D5). -/
inductive FaultCode where
  /-- No fault: still running, or stopped by HLT. -/
  | none
  /-- The fetched byte is no opcode (R131). -/
  | illegalOpcode
  /-- POP with SP = 0xF4 (R132). -/
  | stackUnderflow
  /-- A fetch address above 255 or a register index above 7 (R133). -/
  | boundsFault
  /-- An ALU selector outside ADD, SUB, MUL (R134). -/
  | unsupportedAluOp
  deriving DecidableEq, Repr

/-- `raise F(info)` of the spec's pseudocode, and the dispatch miss that "writes `ILLEGAL_OPCODE` the same
way" (R7, R135). -/
inductive Trap where
  /-- The dispatch miss on byte `ir` (R73). -/
  | illegalOpcode (ir : Byte)
  /-- `StackUnderflow(sp)` (R111, R132). -/
  | stackUnderflow (sp : Byte)
  /-- `BoundsFault(info)`: an address or a register index (R133). -/
  | boundsFault (info : PcWord)
  /-- `UnsupportedOperation(0)` (R105, R134). -/
  | unsupportedOperation
  deriving DecidableEq, Repr

/-- The result of a primitive that can `raise` (R7): a value, or the fault that abandons the
instruction. -/
abbrev Checked (α : Type) := Except Trap α

/-- Memory: the cells that do not hold what reset leaves in them, addresses strictly rising. `Memory.wf`
is the form, `Memory.read` and `Memory.write` the only access. -/
structure Memory where
  cells : List Host.Cell
  deriving DecidableEq, Repr

/-- "The complete architectural state is the tuple below. Nothing else persists from one step to the
next." (R10) -/
structure State where
  /-- `x[0]` .. `x[7]` (R11). -/
  regs : Vector Byte 8
  /-- The program counter (R14). -/
  pc : PcWord
  /-- `M[0]` .. `M[255]` (R20). -/
  mem : Memory
  /-- 0 is RUNNING, 1 is HALTED (R16). -/
  halted : Bool
  /-- Why the loop stopped other than by HLT (R18). -/
  fault : FaultCode
  /-- The offending value (R18). -/
  faultInfo : PcWord
  /-- The values PRN has emitted, oldest first (R20). -/
  out : List Byte
  deriving DecidableEq, Repr

/-- How a step could stop outside the spec's own state: in no way. Every fault of the spec is HALTED plus
a `fault` code, a next state (R135), and a halted machine answers its own state (R70). The type has no
constructor, so that no step can end in one; safe (log 2). -/
inductive Fault where
  deriving DecidableEq, Repr

/-- What the model turns away. -/
inductive Refusal where
  /-- An instruction without a meaning. Raised by no arm of `exec`: all nine have one. Safe. -/
  | notModelled (mnemonic : String)
  /-- Raised by `load` only, never by a step: an image of more than 256 bytes "is not a start state of
  this machine" (R163, decision D15). Safe (log 11). -/
  | imageTooLong (length : Nat)
  deriving DecidableEq, Repr

/-- The state after reset, before an image is loaded (R161). -/
def State.reset : State where
  regs := #v[0x00, 0x00, 0x00, 0x00, 0x00, 0x00, 0x00, Config.spReset]
  pc := Config.pcReset
  mem := { cells := [] }
  halted := false
  fault := .none
  faultInfo := 0
  out := []

end Sys2Proof.Machine
end

