-- ==== Sys2Proof/Machine/Flags.lean ====
section
/-! DEFINITION. There is no flags register and no condition code (spec/10_state.md R16), so no flag is
computed anywhere. "The only single-bit state is `halted`, which is run control": its write, and the
numbers of the fault codes (R18). -/

namespace Sys2Proof.Machine

/-- `halted <- 1` (R16, R78). Nothing but reset clears it. -/
def State.halt (s : State) : State := { s with halted := true }

/-- The numeric codes of R130 (decision D5: the spec's own numbers). -/
def FaultCode.toNat : FaultCode → Nat
  | .none => 0
  | .illegalOpcode => 1
  | .stackUnderflow => 2
  | .boundsFault => 3
  | .unsupportedAluOp => 4

/-- The code `raise F` leaves in `fault` (R135). -/
def Trap.code : Trap → FaultCode
  | .illegalOpcode _ => .illegalOpcode
  | .stackUnderflow _ => .stackUnderflow
  | .boundsFault _ => .boundsFault
  | .unsupportedOperation => .unsupportedAluOp

/-- The value `raise F` leaves in `fault_info` (R18, R130). -/
def Trap.info : Trap → PcWord
  | .illegalOpcode ir => ir.setWidth 9
  | .stackUnderflow sp => sp.setWidth 9
  | .boundsFault info => info
  | .unsupportedOperation => 0

end Sys2Proof.Machine
end

