-- ==== Sys2Proof/Machine/Ops.lean ====
section
/-! DEFINITION. The named operations over memory, registers, `pc` and `out` (the primitives of
spec/00_scope.md R7), and fault entry (spec/60_exceptions.md R135). -/

namespace Sys2Proof.Machine

/-- `wrap8(a) = a mod 256` "for every integer `a`, negative included (so `-1 mod 256 = 255`)" (R6,
decision D10). -/
def wrap8 (v : Int) : Byte := BitVec.ofInt 8 v

/-- `zext_9`: "the implicit widening of an 8-bit value written to `pc`" (R7). -/
def zext9 (v : Byte) : PcWord := v.setWidth 9

/-! ### Memory -/

/-- The byte a list of cells holds at `a`. -/
def readCells : List Host.Cell → Nat → Byte
  | [], _ => Config.memReset
  | (k, v) :: t, a => if k = a then v else readCells t a

/-- `M[a]`: the content of a cell as plain state (R7). -/
def Memory.read (m : Memory) (a : Nat) : Byte := readCells m.cells a

/-- Put `v` at `a` in a rising list; no pair keeps the value an unlisted cell reads as. -/
def writeCells : List Host.Cell → Nat → Byte → List Host.Cell
  | [], a, v => if v = Config.memReset then [] else [(a, v)]
  | (k, w) :: t, a, v =>
    if a < k then (if v = Config.memReset then (k, w) :: t else (a, v) :: (k, w) :: t)
    else if a = k then (if v = Config.memReset then t else (a, v) :: t)
    else (k, w) :: writeCells t a v

/-- `M[a] <- v` for an address that exists. -/
def Memory.write (m : Memory) (a : Nat) (v : Byte) : Memory := { cells := writeCells m.cells a v }

/-- Addresses from `lo` on, strictly rising, below 256, and no pair equal to what an unlisted cell reads
as. -/
def wfCells : Nat → List Host.Cell → Bool
  | _, [] => true
  | lo, (k, v) :: t =>
    decide (lo ≤ k) && decide (k < Config.memSize) && decide (v ≠ Config.memReset) && wfCells (k + 1) t

/-- The canonical form: equal memories are equal data. -/
def Memory.wf (m : Memory) : Bool := wfCells 0 m.cells

/-- Bytes stored at rising addresses from `a`; a byte past the top of memory has no cell and is left out.
Used by the loader (R163) and by `State.withFetchWord`, never by an instruction. -/
def Memory.writeList (m : Memory) (a : Nat) : List Byte → Memory
  | [] => m
  | v :: vs => if a < Config.memSize then (m.write a v).writeList (a + 1) vs else m

/-- `MemRead(addr, 1)`: the byte, or `BoundsFault(addr)` when `addr > 255` (R30). -/
def memRead (s : State) (addr : Nat) : Checked Byte :=
  if addr < Config.memSize then .ok (s.mem.read addr) else .error (.boundsFault (BitVec.ofNat 9 addr))

/-- The state with another memory. -/
def State.setMem (s : State) (m : Memory) : State := { s with mem := m }

/-- `MemWrite(addr, 1, v)`: store `wrap8(v)` and return it, or `BoundsFault(addr)` with memory unchanged
(R31). -/
def memWrite (s : State) (addr : Nat) (v : Int) : Checked (Byte × State) :=
  if addr < Config.memSize then .ok (wrap8 v, s.setMem (s.mem.write addr (wrap8 v)))
  else .error (.boundsFault (BitVec.ofNat 9 addr))

/-! ### Registers, `pc`, `out` -/

/-- `x[i]` for an index that exists (R12). -/
def State.reg (s : State) (i : Fin 8) : Byte := s.regs[i]

/-- `x[i] <- v` for an index that exists: "A write stores `wrap8(v)`" (R12). -/
def State.setReg (s : State) (i : Fin 8) (v : Int) : State := { s with regs := s.regs.set i (wrap8 v) }

/-- `SP`, another name for `x[7]` (R7, R13). -/
def State.sp (s : State) : Byte := s.reg Config.spIndex

/-- `x[7] <- x[7] - 1`, wrapping (R110, R120). -/
def State.decSp (s : State) : State := s.setReg Config.spIndex ((s.sp.toNat : Int) - 1)

/-- `x[7] <- x[7] + 1`, wrapping (R111, R121). -/
def State.incSp (s : State) : State := s.setReg Config.spIndex ((s.sp.toNat : Int) + 1)

/-- `pc <- target` (R7, R14). -/
def State.setPc (s : State) (target : PcWord) : State := { s with pc := target }

/-- `Output(v)`: append to the output channel (R7, R20). -/
def State.output (s : State) (v : Byte) : State := { s with out := s.out ++ [v] }

/-- `MemWrite(x[7], 1, v)`, the store of PUSH and CALL. "No instruction uses the returned value" (R31). -/
def storeTop (s : State) (v : Int) : Checked State :=
  match memWrite s s.sp.toNat v with
  | .ok (_, s') => .ok s'
  | .error t => .error t

/-! ### Taking a fault

There is no return from a fault: "no return-from-trap instruction and no way for a program to observe
or clear a fault" (R137), so nothing stands beside `raise`. -/

/-- Fault entry: `halted <- 1; fault <- code(F); fault_info <- info`, "exactly this and nothing else"
(R135). -/
def State.raise (s : State) (t : Trap) : State :=
  { s with halted := true, fault := t.code, faultInfo := t.info }

/-- An instruction's outcome from state `s`: its own next state when every check passed, else `s` with the
fault taken. Faults are precise: nothing the instruction wrote survives (R136, decision D8). -/
def attempt (s : State) (r : Checked State) : Host.Outcome State Fault Refusal :=
  match r with
  | .ok s' => .next s'
  | .error t => .next (s.raise t)

end Sys2Proof.Machine
end

