-- ==== Sys2Proof/Machine/Operands.lean ====
section
/-! DEFINITION. The two operand kinds of spec/30_encoding.md R53: a register index and an 8-bit immediate.
An immediate is its byte; a register index is checked. Also the latching of the operand bytes (R74). -/

namespace Sys2Proof.Machine

/-- A register-index operand: the register when it is 0..7, else `BoundsFault(index)` (R12, R53, R133). -/
def regIndex (r : RegOperand) : Checked (Fin 8) :=
  if h : r.toNat < 8 then .ok ⟨r.toNat, h⟩ else .error (.boundsFault (r.setWidth 9))

/-- The operand bytes at `addr`, `addr + 1`, ..., in order; the first one past 255 raises
`BoundsFault` (R74). Only the `n` bytes the instruction uses are read (R33). -/
def fetchOperands (s : State) (addr : Nat) : Nat → Checked (List Byte)
  | 0 => .ok []
  | n + 1 => do
    let v ← memRead s addr
    let vs ← fetchOperands s (addr + 1) n
    .ok (v :: vs)

end Sys2Proof.Machine
end

