-- ==== Sys2Proof/Machine/Alu.lean ====
section
/-! DEFINITION. The ALU, its register wrapper, MUL and ADD (spec/42_alu.md). -/

namespace Sys2Proof.Machine

/-- The operation selector, symbolic (R100, decision D23). No opcode selects SUB (R104). -/
inductive AluOp where
  | add
  | sub
  | mul
  /-- DESIGN CHOICE (log 3): one name for "any other op" of R100. No instruction uses it; safe. -/
  | other
  deriving DecidableEq, Repr

/-- `ALU(op, va, vb)` on the mathematical integers, reduced mod 256; any other selector raises
`UnsupportedOperation` (R100, R105). -/
def alu : AluOp → Byte → Byte → Checked Byte
  | .add, va, vb => .ok (wrap8 ((va.toNat : Int) + vb.toNat))
  | .sub, va, vb => .ok (wrap8 ((va.toNat : Int) - vb.toNat))
  | .mul, va, vb => .ok (wrap8 ((va.toNat : Int) * vb.toNat))
  | .other, _, _ => .error .unsupportedOperation

/-- `apply(op, a, b)`: both indices are checked, `a` first, both registers read, then `x[a]` written
(R101). -/
def aluApply (op : AluOp) (a b : RegOperand) (s : State) : Checked State := do
  let i ← regIndex a
  let j ← regIndex b
  let v ← alu op (s.reg i) (s.reg j)
  .ok (s.setReg i v.toNat)

/-- MUL: `apply(MUL, operand_a, operand_b)` (R102). -/
def execMul (a b : RegOperand) (s : State) : Host.Outcome State Fault Refusal :=
  attempt s (aluApply .mul a b s)

/-- ADD: `apply(ADD, operand_a, operand_b)` (R103). -/
def execAdd (a b : RegOperand) (s : State) : Host.Outcome State Fault Refusal :=
  attempt s (aluApply .add a b s)

end Sys2Proof.Machine
end

