-- ==== Sys2Proof/Machine/Control.lean ====
section
/-! DEFINITION. HLT (spec/40_execution_loop.md R78). -/

namespace Sys2Proof.Machine

/-- HLT: `halted <- 1`. `pc` stays, because the loop does not advance a halted machine (R76, R78). -/
def execHlt (s : State) : Host.Outcome State Fault Refusal := .next s.halt

end Sys2Proof.Machine
end

