-- ==== Sys2Proof/Machine/LoadPrint.lean ====
section
/-! DEFINITION. LDI and PRN (spec/41_load_and_print.md). -/

namespace Sys2Proof.Machine

/-- LDI: `x[operand_a] <- operand_b` (R90). -/
def execLdi (r : RegOperand) (v : Byte) (s : State) : Host.Outcome State Fault Refusal :=
  attempt s do
    let i ← regIndex r
    .ok (s.setReg i v.toNat)

/-- PRN: `Output(x[operand_a])` (R91). -/
def execPrn (r : RegOperand) (s : State) : Host.Outcome State Fault Refusal :=
  attempt s do
    let i ← regIndex r
    .ok (s.output (s.reg i))

end Sys2Proof.Machine
end

