-- ==== Sys2Proof/Machine/Stack.lean ====
section
/-! DEFINITION. PUSH and POP (spec/43_stack.md). -/

namespace Sys2Proof.Machine

/-- PUSH: the index check, then `x[7] <- x[7] - 1`, then `MemWrite(x[7], 1, x[operand_a])` with the source
read after the decrement, so `PUSH R7` stores the new SP (R110, decision D17). -/
def execPush (r : RegOperand) (s : State) : Host.Outcome State Fault Refusal :=
  attempt s do
    let i ← regIndex r
    let s₁ := s.decSp
    storeTop s₁ (s₁.reg i).toNat

/-- POP: the index check, the sentinel test, then `x[operand_a] <- MemRead(x[7], 1)`, then
`x[7] <- x[7] + 1`, so `POP R7` increments the popped value (R111, decisions D7, D17). -/
def execPop (r : RegOperand) (s : State) : Host.Outcome State Fault Refusal :=
  attempt s do
    let i ← regIndex r
    if s.sp = Config.spReset then .error (.stackUnderflow s.sp)
    else do
      let v ← memRead s s.sp.toNat
      .ok (s.setReg i v.toNat).incSp

end Sys2Proof.Machine
end

