-- ==== Sys2Proof/Machine/Subroutine.lean ====
section
/-! DEFINITION. CALL and RET (spec/44_subroutine.md). -/

namespace Sys2Proof.Machine

/-- `return_addr <- pc + 2`, the "9-bit sum, 2..257" of R120; the store truncates it to a byte. -/
def returnAddr (s : State) : Nat := s.pc.toNat + 2

/-- CALL: the index check, the return address pushed, then `pc <- x[operand_a]` read after the push. The
operand is the latched byte, whatever the push overwrites (R120, decisions D11, D17). -/
def execCall (r : RegOperand) (s : State) : Host.Outcome State Fault Refusal :=
  attempt s do
    let i ← regIndex r
    let s₁ ← storeTop s.decSp (returnAddr s)
    .ok (s₁.setPc (zext9 (s₁.reg i)))

/-- RET: `addr <- MemRead(x[7], 1)`, `x[7] <- x[7] + 1`, `pc <- addr`, with no empty-stack test (R121,
decision D12). -/
def execRet (s : State) : Host.Outcome State Fault Refusal :=
  attempt s do
    let addr ← memRead s s.sp.toNat
    .ok (s.incSp.setPc (zext9 addr))

end Sys2Proof.Machine
end

