-- ==== Sys2Proof/Machine/Loop.lean ====
section
/-! DEFINITION. The phases of one step (spec/40_execution_loop.md R71 to R77), over any assignment of the
opcode bytes. -/

namespace Sys2Proof.Machine

/-- Phases 1 to 4 up to the handler, in the order of R140: the opcode fetch, which raises `BoundsFault(pc)`
past 255 (R71); the dispatch test (R73); the operand bytes that bits 7:6 announce (R74), latched here
(R54). The answer is the opcode byte and the instruction. `decodeWith` cannot fail after these checks
for a legal assignment (R56). -/
def fetchWith (m : OpcodeMap) (s : State) : Checked (Byte × Instr) := do
  let ir ← memRead s s.pc.toNat
  match m.lookup ir with
  | none => .error (.illegalOpcode ir)
  | some _ => do
    let ops ← fetchOperands s (s.pc.toNat + 1) (opcodeNOps ir)
    match decodeWith m (ir :: ops) with
    | .ok (i, _) => .ok (ir, i)
    | .error _ => .error (.illegalOpcode ir)

/-- Phase 5: "If `sets_pc` is false and state is still `RUNNING`, advance `PC := PC + length`", with no
wrap: from `pc <= 255` the sum is at most 258 (R76, R14). -/
def advance (ir : Byte) (s : State) : State :=
  if opcodeSetsPc ir = false ∧ s.halted = false then s.setPc (s.pc + BitVec.ofNat 9 (opcodeLength ir))
  else s

/-- One step (R77). A halted machine does not step: its state is returned unchanged (R70, decision
D16). -/
def stepWith (m : OpcodeMap) (s : State) : Host.Outcome State Fault Refusal :=
  if s.halted then .next s
  else
    match fetchWith m s with
    | .error t => .next (s.raise t)
    | .ok (ir, i) =>
      match exec i s with
      | .next s' => .next (advance ir s')
      | .fault f => .fault f
      | .refused r => .refused r

/-- The three bytes of a table word laid out from `pc` on, and the machine running, so that the next step
fetches them (log 6). -/
def placeWord (s : State) (nbits w : Nat) : State :=
  { s with halted := false, mem := s.mem.writeList s.pc.toNat (wordBytes nbits w) }

end Sys2Proof.Machine
end

