-- ==== Sys2Proof/Machine/Step.lean ====
section
/-! DEFINITION. The step of the machine with the default opcode bytes (spec/40_execution_loop.md R77). -/

namespace Sys2Proof.Machine

/-- One step of the machine (R77). -/
def step (s : State) : Host.Outcome State Fault Refusal := stepWith Config.opcodes s

/-- The state with a table word where the next step fetches (log 6). -/
def State.withFetchWord (s : State) (nbits w : Nat) : State := placeWord s nbits w

end Sys2Proof.Machine
end

