-- ==== Sys2Proof/Machine/HostInterface.lean ====
section
/-! DEFINITION. The host's transactions: reset, load, step, run, and its reads
(spec/70_reset_and_hazards.md R160 to R166, spec/60_exceptions.md R150). -/

namespace Sys2Proof.Machine

/-- `load(image)`: "`M[i] <- b[i]` for `i` in `0..n-1`"; "The load changes memory only". An image of more
than 256 bytes is refused (R163, decision D15). -/
def load (image : List Byte) (s : State) : Host.Outcome State Fault Refusal :=
  if image.length ≤ Config.memSize then
    .next { s with mem := s.mem.writeList Config.loadBase image }
  else .refused (.imageTooLong image.length)

/-- The start state of a run, "a function of the image alone" (R164). -/
def startState (image : List Byte) : Host.Outcome State Fault Refusal := load image State.reset

/-- A run under fuel: at most `n` steps, "continued while `halted = 0`" (R79, R81). -/
def runFor : Nat → State → State
  | 0, s => s
  | n + 1, s =>
    if s.halted then s
    else
      match step s with
      | .next s' => runFor n s'
      | .fault _ => s
      | .refused _ => s

/-- How far a session is since its last reset; it decides whether `load` is allowed (R166). -/
inductive Phase where
  | constructed
  | loaded
  | started
  deriving DecidableEq, Repr

/-- The core with the phase its host is in. -/
structure Session where
  phase : Phase
  core  : State
  deriving DecidableEq, Repr

/-- The session right after reset. -/
def Session.fresh : Session where
  phase := .constructed
  core := State.reset

/-- The transactions of R166 that change something. -/
inductive Transaction where
  /-- Reset, "any time" (R160). -/
  | reset
  /-- Load, "after reset, before the first step" (R163). -/
  | load (image : List Byte)
  /-- One step, "a no-op when `halted = 1`". -/
  | step
  /-- Run while `halted = 0`, here at most `fuel + 1` steps (R81: "an executor runs under fuel"). -/
  | run (fuel : Nat)
  deriving DecidableEq, Repr

/-- What a transaction does, or `none` where R166 does not allow it. DESIGN CHOICE (log 10): one load per
reset; safe. -/
def Session.transact (c : Session) : Transaction → Option Session
  | .reset => some Session.fresh
  | .load image =>
    match c.phase with
    | .constructed =>
      match Sys2Proof.Machine.load image c.core with
      | .next s => some { phase := .loaded, core := s }
      | .fault _ => none
      | .refused _ => none
    | .loaded => none
    | .started => none
  | .step =>
    match Sys2Proof.Machine.step c.core with
    | .next s => some { phase := .started, core := s }
    | .fault _ => none
    | .refused _ => none
  | .run fuel =>
    if c.core.halted then none
    else some { phase := .started, core := runFor (fuel + 1) c.core }

/-- A sequence of transactions, each of them allowed. -/
def Session.transactAll (c : Session) : List Transaction → Option Session
  | [] => some c
  | t :: ts =>
    match c.transact t with
    | some c' => c'.transactAll ts
    | none => none

/-- "a host that renders it as text prints each value as an unsigned decimal integer without leading
zeros followed by a line end" (R20, decision D13): the lines, without their ends (log 9). -/
def outputLines (s : State) : List String := s.out.map fun v => toString v.toNat

/-- A byte for the trace: `none` past the top of memory (R150, decision D21; log 8). -/
def traceByte (s : State) (a : Nat) : Option Byte := if a < Config.memSize then some (s.mem.read a) else none

/-- The debug trace's content: "PC, the next three memory bytes, and all 8 registers"; "a read-only
observation of state between steps" (R150). -/
def traceOf (s : State) : TraceRecord where
  pc := s.pc
  bytes := [traceByte s s.pc.toNat, traceByte s (s.pc.toNat + 1), traceByte s (s.pc.toNat + 2)]
  regs := s.regs

/-- The trace as text, in the host's own format (R150, decision D21). -/
def traceText (s : State) : String := Config.traceFormat (traceOf s)

end Sys2Proof.Machine
end

