-- ==== Sys2Proof/Safety.lean ====
section
/-! DEFINITION. The terms claims are stated in: how a run ends (spec/40_execution_loop.md R80), the
invariant of reachable states (spec/10_state.md R22, R18), the priority of faults
(spec/60_exceptions.md R140), and what two states share. -/

namespace Sys2Proof.Machine

/-- The three kinds of end of a run, "told apart by `fault`" (R80). -/
inductive StopKind where
  /-- `fault = NONE`, reached only by HLT. -/
  | normalHalt
  /-- `fault = ILLEGAL_OPCODE`. -/
  | unknownOpcode
  /-- `fault` one of the other three. -/
  | faultStop
  deriving DecidableEq, Repr

/-- How a run has ended in `s`, or `none` while `halted = 0` (R80). -/
def State.stopKind (s : State) : Option StopKind :=
  if s.halted then
    match s.fault with
    | .none => some .normalHalt
    | .illegalOpcode => some .unknownOpcode
    | .stackUnderflow | .boundsFault | .unsupportedAluOp => some .faultStop
  else none

/-- "a claim about a program should require `fault = NONE` at the end" (R80): no fault was taken. -/
def State.safe (s : State) : Bool := decide (s.fault = .none)

/-- The values of `fault_info` for each code (R18): the opcode byte, which is no opcode; 0xF4; an address
256..258 or an index 8..255; 0. -/
def faultInfoOk : FaultCode → PcWord → Bool
  | .none, info => decide (info = 0)
  | .illegalOpcode, info =>
    decide (info.toNat ≤ 255) && decide (Config.opcodes.lookup (info.setWidth 8) = none)
  | .stackUnderflow, info => decide (info = 0xF4)
  | .boundsFault, info => decide (8 ≤ info.toNat) && decide (info.toNat ≤ 258)
  | .unsupportedAluOp, info => decide (info = 0)

/-- The invariant of R22 and R18: `pc` in 0..258, `fault != NONE -> halted = 1`, a `fault_info` that fits
its code, and memory in canonical form. -/
abbrev State.Inv (s : State) : Prop :=
  s.pc.toNat ≤ 258 ∧ (s.fault ≠ .none → s.halted = true) ∧ faultInfoOk s.fault s.faultInfo = true ∧
    s.mem.wf = true

/-- The bytes `bs` lie in memory from `pc` on, all of them at addresses 0..255. -/
abbrev State.codeAt (s : State) (bs : List Byte) : Prop :=
  s.pc.toNat + bs.length ≤ 256 ∧ ∀ k (h : k < bs.length), s.mem.read (s.pc.toNat + k) = bs[k]

/-- The machine is RUNNING and its next instruction is `i` (R70, R51). -/
abbrev State.runningAt (s : State) (i : Instr) : Prop := s.halted = false ∧ s.codeAt (encode i)

/-- `halted`, `fault` and `fault_info` are the same. -/
abbrev SameRunState (s t : State) : Prop :=
  t.halted = s.halted ∧ t.fault = s.fault ∧ t.faultInfo = s.faultInfo

/-- Every byte of memory reads as before. -/
abbrev SameMemory (s t : State) : Prop := ∀ a, t.mem.read a = s.mem.read a

/-- Every byte of memory outside address `b` reads as before. -/
abbrev SameMemoryBut (b : Nat) (s t : State) : Prop := ∀ a, a ≠ b → t.mem.read a = s.mem.read a

/-- Every register outside `js` reads as before. -/
abbrev SameRegsBut (js : List (Fin 8)) (s t : State) : Prop := ∀ j, j ∉ js → t.reg j = s.reg j

/-- The address PUSH and CALL store to: "effective address `wrap8(SP_old - 1)`" (R110, R120), the
address `storeTop` uses after `decSp`. -/
def pushAddr (s : State) : Nat := s.decSp.sp.toNat

/-- A register index among the operands: the register named, if the byte is 0..7. -/
def namedReg (r : RegOperand) : List (Fin 8) := if h : r.toNat < 8 then [⟨r.toNat, h⟩] else []

/-- The "registers read" column of R13. -/
def readRegs : Instr → List (Fin 8)
  | .hlt => []
  | .ldi _ _ => []
  | .prn r => namedReg r
  | .mul a b => namedReg a ++ namedReg b
  | .add a b => namedReg a ++ namedReg b
  | .push r => 7 :: namedReg r
  | .pop _ => [7]
  | .call r => 7 :: namedReg r
  | .ret => [7]

/-- The "registers written" column of R13. -/
def writtenRegs : Instr → List (Fin 8)
  | .hlt => []
  | .ldi r _ => namedReg r
  | .prn _ => []
  | .mul a _ => namedReg a
  | .add a _ => namedReg a
  | .push _ => [7]
  | .pop r => [7] ++ namedReg r
  | .call _ => [7]
  | .ret => [7]

/-- The byte at an address, for the conditions of R140. -/
abbrev State.byteAt (s : State) (a : Nat) : Byte := s.mem.read a

/-- The first check of R140 that fails in a running state, or `none` when the instruction completes.
Written from the list of R140 alone, not from the step: 1 `pc`, 2 opcode, 3 and 4 operand addresses,
5 and 6 register indices, 7 underflow (8 is unreachable). -/
def firstFailedCheck (s : State) : Option Trap :=
  let a := s.byteAt (s.pc.toNat + 1)
  let b := s.byteAt (s.pc.toNat + 2)
  if s.pc.toNat > 255 then some (.boundsFault s.pc)
  else
    match Config.opcodes.lookup (s.byteAt s.pc.toNat) with
    | none => some (.illegalOpcode (s.byteAt s.pc.toNat))
    | some k =>
      if k.nOps ≥ 1 ∧ s.pc.toNat + 1 > 255 then some (.boundsFault 256)
      else if k.nOps = 2 ∧ s.pc.toNat + 2 > 255 then some (.boundsFault 256)
      else if k.nOps ≥ 1 ∧ a.toNat > 7 then some (.boundsFault (a.setWidth 9))
      else if (k = .mul ∨ k = .add) ∧ b.toNat > 7 then some (.boundsFault (b.setWidth 9))
      else if k = .pop ∧ s.sp = Config.spReset then some (.stackUnderflow Config.spReset)
      else none

end Sys2Proof.Machine
end

