-- ==== Sys2Proof/Certificates/Slice0/Obligations.lean ====
section
/-! DEFINITION. The statements for the provers. `Dn`, `Cn` are the decisions and conflicts of spec/; "derived"
statements rest on a clause the spec marks as its own decision or derivation, named in the docstring. -/

open Sys2Proof Sys2Proof.Machine

/-! ### Encoding -/

/-- Decoding an encoded instruction gives it back, with every operand byte and with the bytes behind it,
for every legal assignment of the opcode bytes (R51, R55, R56; the byte values are D1, log 1). -/
def Obligations.DecodeEncodeRoundTrip : Prop :=
  ∀ m : OpcodeMap, m.Valid → ∀ (i : Instr) (rest : List Byte),
    decodeWith m (encodeWith m i ++ rest) = .ok (i, rest)

/-- Bytes that decode are the encoding of what they decode to, followed by the bytes left over: an
instruction has one encoding (R51, R57). -/
def Obligations.EncodeDecodeRoundTrip : Prop :=
  ∀ (m : OpcodeMap) (bs rest : List Byte) (i : Instr),
    decodeWith m bs = .ok (i, rest) → encodeWith m i ++ rest = bs

/-- The decode procedure (R57, R72): the fields of the opcode byte, a hit by equality on all 8 bits that
consumes exactly `length` bytes, and a miss that is rejected as an unknown opcode. -/
def Obligations.DecodeProcedure : Prop :=
  ∀ m : OpcodeMap, m.Valid → ∀ (ir : Byte) (rest : List Byte),
    opcodeNOps ir = ((ir >>> 6) &&& 0b11#8).toNat ∧
    opcodeLength ir = opcodeNOps ir + 1 ∧
    (opcodeSetsPc ir = true ↔ (ir >>> 4) &&& 1#8 = 1#8) ∧
    (∀ k, m.opcode k = ir → opcodeLength ir ≤ (ir :: rest).length →
      ∃ i rest', decodeWith m (ir :: rest) = .ok (i, rest') ∧ i.mnemonic = k ∧
        rest'.length + opcodeLength ir = (ir :: rest).length) ∧
    ((∀ k, m.opcode k ≠ ir) → decodeWith m (ir :: rest) = .error (.unknownOpcode ir))

/-- The default bytes obey the three constraints of R56, and 247 of the 256 byte values are unknown
opcodes (R58). The byte values are the spec's own defaults (D1, log 1). -/
def Obligations.DefaultOpcodesLegal : Prop :=
  Config.opcodes.Valid ∧
    ((List.range 256).filter fun n => Config.opcodes.lookup (BitVec.ofNat 8 n) == none).length = 247

/-- One word of each instruction, written out from the table of R55 (bytes of D1, log 1). -/
def Obligations.SampleWordsDecode : Prop :=
  decode [0b00000001] = .ok (.hlt, []) ∧
  decode [0b10000010, 0b00000011, 0b11111111] = .ok (.ldi 3 255, []) ∧
  decode [0b01000111, 0b00000111] = .ok (.prn 7, []) ∧
  decode [0b10100010, 0b00000010, 0b00000101] = .ok (.mul 2 5, []) ∧
  decode [0b10100000, 0b00000110, 0b00000001] = .ok (.add 6 1, []) ∧
  decode [0b01000101, 0b00000100] = .ok (.push 4, []) ∧
  decode [0b01000110, 0b00000001] = .ok (.pop 1, []) ∧
  decode [0b01010000, 0b00000110] = .ok (.call 6, []) ∧
  decode [0b00010001] = .ok (.ret, [])

/-! ### Reset, load, and the invariant -/

/-- The state after reset (R161). `fault`, `fault_info` are the spec's D5, `out` its D13. -/
def Obligations.ResetState : Prop :=
  (∀ i : Fin 8, i ≠ 7 → State.reset.reg i = 0x00) ∧ State.reset.reg 7 = 0xF4 ∧
  State.reset.pc = 0 ∧ (∀ a, a ≤ 255 → State.reset.mem.read a = 0x00) ∧ State.reset.halted = false ∧
  State.reset.fault = .none ∧ State.reset.faultInfo = 0 ∧ State.reset.out = []

/-- The start state of a run is a function of the image alone (R163, R164); an image of more than 256
bytes is refused (D15, log 11). `fault`, `fault_info` are D5, `out` is D13. -/
def Obligations.LoadGivesStartState : Prop :=
  (∀ image : List Byte, image.length ≤ 256 → ∃ s, startState image = .next s ∧
    (∀ i (h : i < image.length), s.mem.read i = image[i]) ∧
    (∀ a, image.length ≤ a → s.mem.read a = 0x00) ∧
    (∀ j, s.reg j = State.reset.reg j) ∧ s.pc = 0 ∧ s.halted = false ∧ s.fault = .none ∧
    s.faultInfo = 0 ∧ s.out = []) ∧
  (∀ image : List Byte, 256 < image.length →
    startState image = .refused (.imageTooLong image.length))

/-- The reset state meets the invariant of R22 and R18 (D4, D5). -/
def Obligations.ResetMeetsInvariant : Prop := State.reset.Inv

/-- Every step keeps the invariant of R22 and R18: `pc` in 0..258, a fault implies halted, `fault_info`
fits its code, memory stays in canonical form. The width of `pc` is D4, the fault registers are D5 with the
faults of D3, D6 and D7 (log 13), and the form of memory is the model's (log 4). -/
def Obligations.StepKeepsInvariant : Prop :=
  ∀ s t : State, s.Inv → step s = .next t → t.Inv

/-- Whatever transactions the host uses, in whatever order R166 allows, the core's state meets the
invariant (D4, D5, log 4). That a session loads at most once per reset is the model's choice (log 10). -/
def Obligations.SessionsMeetInvariant : Prop :=
  ∀ (ts : List Transaction) (c : Session), Session.fresh.transactAll ts = some c → c.core.Inv

/-! ### Memory, registers, the ALU -/

/-- Memory read (R30). That the info value of a bounds fault has 9 bits, which hold every address the
hardware can form, is the model's reading (log 5). -/
def Obligations.MemReadChecked : Prop :=
  ∀ (s : State) (addr : Nat),
    (addr ≤ 255 → memRead s addr = .ok (s.mem.read addr)) ∧
    (255 < addr → ∃ info, memRead s addr = .error (.boundsFault info) ∧ (addr < 512 → info.toNat = addr))

/-- Memory write (R31): the stored and returned value, the frame, the bounds fault; and the only writers:
PUSH and CALL, at the address below SP, and the loader. That a negative value wraps is the spec's decision
D10 (log 12). -/
def Obligations.MemWriteAndItsWriters : Prop :=
  (∀ (s : State) (addr : Nat) (v : Int), s.mem.wf = true → addr ≤ 255 →
    ∃ r t, memWrite s addr v = .ok (r, t) ∧ (r.toNat : Int) = v % 256 ∧ t.mem.read addr = r ∧
      SameMemoryBut addr s t ∧ SameRegsBut [] s t ∧ t.pc = s.pc ∧ t.out = s.out ∧ SameRunState s t) ∧
  (∀ (s : State) (addr : Nat) (v : Int), 255 < addr →
    ∃ info, memWrite s addr v = .error (.boundsFault info) ∧ (addr < 512 → info.toNat = addr)) ∧
  (∀ (s t : State) (a : Nat), s.mem.wf = true → step s = .next t → t.mem.read a ≠ s.mem.read a →
    a = pushAddr s ∧ ∃ r, s.runningAt (.push r) ∨ s.runningAt (.call r)) ∧
  (∀ (image : List Byte) (s t : State) (a : Nat), s.mem.wf = true → load image s = .next t →
    t.mem.read a ≠ s.mem.read a → a < image.length)

/-- A register write stores its value modulo 256 and touches nothing else; an index above 7 raises a
bounds fault (R11, R12). That -1 wraps to 255 is D10. -/
def Obligations.RegisterWriteWraps : Prop :=
  (∀ (s : State) (i : Fin 8) (v : Int),
    (((s.setReg i v).reg i).toNat : Int) = v % 256 ∧ SameRegsBut [i] s (s.setReg i v) ∧
    SameMemory s (s.setReg i v) ∧ (s.setReg i v).pc = s.pc ∧ (s.setReg i v).out = s.out ∧
    SameRunState s (s.setReg i v)) ∧
  (∀ r : RegOperand, (∀ h : r.toNat < 8, regIndex r = .ok ⟨r.toNat, h⟩) ∧
    (7 < r.toNat → ∃ info, regIndex r = .error (.boundsFault info) ∧ info.toNat = r.toNat))

/-- The ALU function (R100), on the mathematical integers. That one name stands for "any other op" is the
model's choice (log 3). -/
def Obligations.AluResults : Prop :=
  ∀ va vb : Byte,
    (∃ r, alu .add va vb = .ok r ∧ r.toNat = (va.toNat + vb.toNat) % 256) ∧
    (∃ r, alu .sub va vb = .ok r ∧ (r.toNat : Int) = ((va.toNat : Int) - vb.toNat) % 256) ∧
    (∃ r, alu .mul va vb = .ok r ∧ r.toNat = (va.toNat * vb.toNat) % 256) ∧
    alu .other va vb = .error .unsupportedOperation

/-- The laws R106 derives for the ALU. -/
def Obligations.AluLaws : Prop :=
  ∀ p q r : Byte,
    alu .add p q = alu .add q p ∧ alu .mul p q = alu .mul q p ∧
    (do let x ← alu .add p q; alu .add x r) = (do let y ← alu .add q r; alu .add p y) ∧
    (do let x ← alu .mul p q; alu .mul x r) = (do let y ← alu .mul q r; alu .mul p y) ∧
    (do let y ← alu .add q r; alu .mul p y) =
      (do let x ← alu .mul p q; let y ← alu .mul p r; alu .add x y) ∧
    (do let x ← alu .add p q; alu .sub x q) = .ok p ∧
    alu .add p 0 = .ok p ∧ alu .mul p 1 = .ok p ∧ alu .mul p 0 = .ok 0

/-- The register wrapper (R101): `a` is checked first, then `b`, both are read before the write, and only
`x[a]` is written. The statement is about every selector, the model's `other` included (log 3). -/
def Obligations.AluApply : Prop :=
  ∀ (op : AluOp) (a b : RegOperand) (s : State),
    (7 < a.toNat → aluApply op a b s = .error (.boundsFault (a.setWidth 9))) ∧
    (a.toNat ≤ 7 → 7 < b.toNat → aluApply op a b s = .error (.boundsFault (b.setWidth 9))) ∧
    (∀ (ha : a.toNat < 8) (hb : b.toNat < 8),
      (∀ v, alu op (s.reg ⟨a.toNat, ha⟩) (s.reg ⟨b.toNat, hb⟩) = .ok v →
        ∃ t, aluApply op a b s = .ok t ∧ t.reg ⟨a.toNat, ha⟩ = v ∧ SameRegsBut [⟨a.toNat, ha⟩] s t ∧
          SameMemory s t ∧ t.pc = s.pc ∧ t.out = s.out ∧ SameRunState s t) ∧
      (∀ e, alu op (s.reg ⟨a.toNat, ha⟩) (s.reg ⟨b.toNat, hb⟩) = .error e → aluApply op a b s = .error e))

/-- An unsupported selector stops the machine with `UNSUPPORTED_ALU_OP`, info 0, and no register written;
no step of the nine instructions takes that fault (R105, D19). That one name stands for every such
selector is the model's choice (log 3). -/
def Obligations.UnsupportedSelectorFaults : Prop :=
  (∀ (a b : RegOperand) (s : State), a.toNat ≤ 7 → b.toNat ≤ 7 →
    ∃ t, attempt s (aluApply .other a b s) = .next t ∧ t.halted = true ∧ t.fault = .unsupportedAluOp ∧
      t.faultInfo = 0 ∧ SameRegsBut [] s t ∧ SameMemory s t ∧ t.pc = s.pc ∧ t.out = s.out) ∧
  (∀ s t : State, step s = .next t → s.fault ≠ .unsupportedAluOp → t.fault ≠ .unsupportedAluOp)

/-! ### What each handler does, and its frame

These are about `exec`, the handler of R75. The advance of `pc` is the loop's (R76, R77). -/

/-- HLT completes in every state (R78). -/
def Obligations.HltCompletes : Prop :=
  ∀ s : State, ∃ t, exec .hlt s = .next t ∧ t.halted = true ∧ t.fault = s.fault ∧
    t.faultInfo = s.faultInfo ∧ SameRegsBut [] s t ∧ SameMemory s t ∧ t.out = s.out ∧ t.pc = s.pc

/-- LDI completes for every register 0..7 and every immediate (R90). -/
def Obligations.LdiCompletes : Prop :=
  ∀ (s : State) (r : RegOperand) (v : Byte) (h : r.toNat < 8), ∃ t, exec (.ldi r v) s = .next t ∧
    t.reg ⟨r.toNat, h⟩ = v ∧ SameRegsBut [⟨r.toNat, h⟩] s t ∧ SameMemory s t ∧ SameRunState s t ∧
    t.out = s.out ∧ t.pc = s.pc

/-- PRN completes for every register 0..7: its value becomes the last element of `out` (R91). -/
def Obligations.PrnCompletes : Prop :=
  ∀ (s : State) (r : RegOperand) (h : r.toNat < 8), ∃ t, exec (.prn r) s = .next t ∧
    t.out = s.out ++ [s.reg ⟨r.toNat, h⟩] ∧ SameRegsBut [] s t ∧ SameMemory s t ∧ SameRunState s t ∧
    t.pc = s.pc

/-- MUL and ADD complete for all registers 0..7, the same one twice included (R102, R103). -/
def Obligations.AluInstructionsComplete : Prop :=
  ∀ (s : State) (a b : RegOperand) (ha : a.toNat < 8) (hb : b.toNat < 8),
    (∃ t, exec (.mul a b) s = .next t ∧
      (t.reg ⟨a.toNat, ha⟩).toNat = (s.reg ⟨a.toNat, ha⟩).toNat * (s.reg ⟨b.toNat, hb⟩).toNat % 256 ∧
      SameRegsBut [⟨a.toNat, ha⟩] s t ∧ SameMemory s t ∧ SameRunState s t ∧ t.out = s.out ∧
      t.pc = s.pc) ∧
    (∃ t, exec (.add a b) s = .next t ∧
      (t.reg ⟨a.toNat, ha⟩).toNat = ((s.reg ⟨a.toNat, ha⟩).toNat + (s.reg ⟨b.toNat, hb⟩).toNat) % 256 ∧
      SameRegsBut [⟨a.toNat, ha⟩] s t ∧ SameMemory s t ∧ SameRunState s t ∧ t.out = s.out ∧
      t.pc = s.pc)

/-- PUSH completes for every register 0..7 and every SP (R110). The stored value of `PUSH R7` is the
decremented SP (D17). -/
def Obligations.PushCompletes : Prop :=
  ∀ (s : State) (r : RegOperand) (h : r.toNat < 8), s.mem.wf = true → ∃ t, exec (.push r) s = .next t ∧
    (t.sp.toNat : Int) = ((s.sp.toNat : Int) - 1) % 256 ∧ pushAddr s = t.sp.toNat ∧
    t.mem.read (pushAddr s) = (if r.toNat = 7 then t.sp else s.reg ⟨r.toNat, h⟩) ∧
    SameMemoryBut (pushAddr s) s t ∧ SameRegsBut [7] s t ∧ SameRunState s t ∧ t.out = s.out ∧ t.pc = s.pc

/-- POP completes for every register 0..7 when SP is not the sentinel (R111, D7). `POP R7` increments the
popped value (D17). With SP = 0xF4 it takes `StackUnderflow(0xF4)`. -/
def Obligations.PopCompletes : Prop :=
  (∀ (s : State) (r : RegOperand) (h : r.toNat < 8), s.sp ≠ 0xF4 → ∃ t, exec (.pop r) s = .next t ∧
    (r.toNat ≠ 7 → t.reg ⟨r.toNat, h⟩ = s.mem.read s.sp.toNat ∧ t.sp.toNat = (s.sp.toNat + 1) % 256) ∧
    (r.toNat = 7 → t.sp.toNat = ((s.mem.read s.sp.toNat).toNat + 1) % 256) ∧
    SameMemory s t ∧ SameRegsBut [⟨r.toNat, h⟩, 7] s t ∧ SameRunState s t ∧ t.out = s.out ∧ t.pc = s.pc) ∧
  (∀ (s : State) (r : RegOperand), r.toNat < 8 → s.sp = 0xF4 →
    exec (.pop r) s = .next (s.raise (.stackUnderflow 0xF4)))

/-- CALL completes for every register 0..7 and every SP and `pc` (R120). The return address is truncated
to a byte (R120 corner case a, log 12); the target of `CALL R7` is the decremented SP (D17). -/
def Obligations.CallCompletes : Prop :=
  ∀ (s : State) (r : RegOperand) (h : r.toNat < 8), s.mem.wf = true → ∃ t, exec (.call r) s = .next t ∧
    (t.sp.toNat : Int) = ((s.sp.toNat : Int) - 1) % 256 ∧ pushAddr s = t.sp.toNat ∧
    (t.mem.read (pushAddr s)).toNat = (s.pc.toNat + 2) % 256 ∧
    t.pc.toNat = (if r.toNat = 7 then t.sp.toNat else (s.reg ⟨r.toNat, h⟩).toNat) ∧
    SameMemoryBut (pushAddr s) s t ∧ SameRegsBut [7] s t ∧ SameRunState s t ∧ t.out = s.out

/-- RET completes in every state, an empty stack included: there is no underflow test (R121, D12). -/
def Obligations.RetCompletes : Prop :=
  ∀ s : State, ∃ t, exec .ret s = .next t ∧ t.pc.toNat = (s.mem.read s.sp.toNat).toNat ∧
    t.sp.toNat = (s.sp.toNat + 1) % 256 ∧ SameMemory s t ∧ SameRegsBut [7] s t ∧ SameRunState s t ∧
    t.out = s.out

/-- A register operand above 7 takes `BoundsFault(operand)` in each of the seven instructions that have
one, `operand_a` before `operand_b`, and nothing else changes (R53, R59, R133; D3). -/
def Obligations.BadRegisterOperandFaults : Prop :=
  ∀ (s : State) (r q : RegOperand) (v : Byte), 7 < r.toNat →
    let taken : Host.Outcome State Fault Refusal := .next (s.raise (.boundsFault (r.setWidth 9)))
    exec (.ldi r v) s = taken ∧ exec (.prn r) s = taken ∧ exec (.mul r q) s = taken ∧
    exec (.add r q) s = taken ∧ exec (.push r) s = taken ∧ exec (.pop r) s = taken ∧
    exec (.call r) s = taken ∧
    (q.toNat ≤ 7 → exec (.mul q r) s = taken ∧ exec (.add q r) s = taken)

/-- Fault entry writes `halted`, `fault` and `fault_info` and nothing else, with the codes and values of
R130 (R135, D5). -/
def Obligations.FaultEntry : Prop :=
  ∀ (s : State) (t : Trap),
    (s.raise t).halted = true ∧ SameRegsBut [] s (s.raise t) ∧ SameMemory s (s.raise t) ∧
    (s.raise t).pc = s.pc ∧ (s.raise t).out = s.out ∧
    (match t with
      | .illegalOpcode ir => (s.raise t).fault.toNat = 1 ∧ (s.raise t).faultInfo.toNat = ir.toNat
      | .stackUnderflow sp => (s.raise t).fault.toNat = 2 ∧ (s.raise t).faultInfo.toNat = sp.toNat
      | .boundsFault info => (s.raise t).fault.toNat = 3 ∧ (s.raise t).faultInfo = info
      | .unsupportedOperation => (s.raise t).fault.toNat = 4 ∧ (s.raise t).faultInfo = 0)

/-! ### The step -/

/-- A step of a running machine runs the instruction that lies at `pc`, whatever its operands, and then
advances (R77); the same for every legal assignment of the opcode bytes. -/
def Obligations.StepRunsDecodedInstruction : Prop :=
  (∀ (s : State) (i : Instr), s.runningAt i →
    step s =
      match exec i s with
      | .next t => .next (advance (Config.opcodes.opcode i.mnemonic) t)
      | .fault f => .fault f
      | .refused r => .refused r) ∧
  (∀ (m : OpcodeMap), m.Valid → ∀ (s : State) (i : Instr), s.halted = false → s.codeAt (encodeWith m i) →
    stepWith m s =
      match exec i s with
      | .next t => .next (advance (m.opcode i.mnemonic) t)
      | .fault f => .fault f
      | .refused r => .refused r)

/-- Phase 5 (R76): a completed handler whose opcode has bit 4 clear, in a machine still running, is
advanced by `length` with no wrap; HLT, CALL, RET and every fault leave the `pc` the handler left. -/
def Obligations.AdvanceRule : Prop :=
  (∀ (s t : State) (i : Instr), s.runningAt i → exec i s = .next t →
    ∃ u, step s = .next u ∧ SameRegsBut [] t u ∧ SameMemory t u ∧ u.out = t.out ∧ SameRunState t u ∧
      (t.halted = false → opcodeSetsPc (Config.opcodes.opcode i.mnemonic) = false →
        u.pc.toNat = s.pc.toNat + opcodeLength (Config.opcodes.opcode i.mnemonic)) ∧
      (t.halted = true ∨ opcodeSetsPc (Config.opcodes.opcode i.mnemonic) = true → u.pc = t.pc) ∧
      (i = .hlt → u.pc = s.pc)) ∧
  (∀ (s t : State), s.halted = false → s.fault = .none → step s = .next t → t.fault ≠ .none →
    t.pc = s.pc)

/-- HALTED is terminal and keeps all state; reset is the only exit (R151, and R70 with D16: a step
answers the state unchanged). Which transactions there are is R166 (log 10). -/
def Obligations.HaltedIsTerminal : Prop :=
  (∀ s : State, s.halted = true → step s = .next s) ∧
  (∀ (c c' : Session) (t : Transaction), c.phase = .started → c.core.halted = true →
    c.transact t = some c' → t = .reset ∨ c'.core = c.core)

/-- HLT (R78): the machine halts with `fault` as it was, `pc` at the HLT byte, at address 255 too, where no
operand byte is read (D3, log 13). The second clause, that with `pc` above 255 the step takes
`BoundsFault(pc)`, is R71 and the spec's decision D4 (log 13; log 5 for `pc` 259..511); R78 says only its
converse. -/
def Obligations.StepHlt : Prop :=
  (∀ s : State, s.halted = false → s.pc.toNat ≤ 255 → s.mem.read s.pc.toNat = Config.opcodes.hlt →
    ∃ t, step s = .next t ∧ t.halted = true ∧ t.fault = s.fault ∧ t.faultInfo = s.faultInfo ∧
      t.pc = s.pc ∧ SameRegsBut [] s t ∧ SameMemory s t ∧ t.out = s.out) ∧
  (∀ s : State, s.halted = false → 255 < s.pc.toNat → step s = .next (s.raise (.boundsFault s.pc)))

/-- LDI (R90), with its bounds fault and its fetch fault, as R90 itself states them. They are the spec's
decision D3 (log 13), and how a fault is recorded is D5. -/
def Obligations.StepLdi : Prop :=
  (∀ (s : State) (r : RegOperand) (v : Byte), s.runningAt (.ldi r v) →
    (∀ h : r.toNat < 8, ∃ t, step s = .next t ∧ t.reg ⟨r.toNat, h⟩ = v ∧ SameRegsBut [⟨r.toNat, h⟩] s t ∧
      SameMemory s t ∧ t.out = s.out ∧ SameRunState s t ∧ t.pc.toNat = s.pc.toNat + 3) ∧
    (7 < r.toNat → step s = .next (s.raise (.boundsFault (r.setWidth 9))))) ∧
  (∀ s : State, s.halted = false → (s.pc.toNat = 254 ∨ s.pc.toNat = 255) →
    s.mem.read s.pc.toNat = Config.opcodes.ldi → step s = .next (s.raise (.boundsFault 256)))

/-- PRN (R91, D13), with its bounds fault and its fetch fault (D3, log 13). -/
def Obligations.StepPrn : Prop :=
  (∀ (s : State) (r : RegOperand), s.runningAt (.prn r) →
    (∀ h : r.toNat < 8, ∃ t, step s = .next t ∧ t.out = s.out ++ [s.reg ⟨r.toNat, h⟩] ∧
      SameRegsBut [] s t ∧ SameMemory s t ∧ SameRunState s t ∧ t.pc.toNat = s.pc.toNat + 2) ∧
    (7 < r.toNat → step s = .next (s.raise (.boundsFault (r.setWidth 9))))) ∧
  (∀ s : State, s.halted = false → s.pc.toNat = 255 → s.mem.read 255 = Config.opcodes.prn →
    step s = .next (s.raise (.boundsFault 256)))

/-- MUL (R102), with its bounds faults, `operand_a` first, and its fetch fault (D3, D9, log 13). That the product
is the same byte whether the operands are read as unsigned or as two's complement is the spec's own
inference: R102 marks it "[derived: from rule R100]". -/
def Obligations.StepMul : Prop :=
  (∀ (s : State) (a b : RegOperand), s.runningAt (.mul a b) →
    (∀ (ha : a.toNat < 8) (hb : b.toNat < 8), ∃ t, step s = .next t ∧
      (t.reg ⟨a.toNat, ha⟩).toNat = (s.reg ⟨a.toNat, ha⟩).toNat * (s.reg ⟨b.toNat, hb⟩).toNat % 256 ∧
      t.reg ⟨a.toNat, ha⟩ =
        BitVec.ofInt 8 ((s.reg ⟨a.toNat, ha⟩).toInt * (s.reg ⟨b.toNat, hb⟩).toInt) ∧
      SameRegsBut [⟨a.toNat, ha⟩] s t ∧ SameMemory s t ∧ t.out = s.out ∧ SameRunState s t ∧
      t.pc.toNat = s.pc.toNat + 3) ∧
    (7 < a.toNat → step s = .next (s.raise (.boundsFault (a.setWidth 9)))) ∧
    (a.toNat ≤ 7 → 7 < b.toNat → step s = .next (s.raise (.boundsFault (b.setWidth 9))))) ∧
  (∀ s : State, s.halted = false → (s.pc.toNat = 254 ∨ s.pc.toNat = 255) →
    s.mem.read s.pc.toNat = Config.opcodes.mul → step s = .next (s.raise (.boundsFault 256)))

/-- ADD (R103), with its bounds faults, `operand_a` first, and its fetch fault, as R103 itself states them.
They are the spec's decisions D3 and D9 (log 13). -/
def Obligations.StepAdd : Prop :=
  (∀ (s : State) (a b : RegOperand), s.runningAt (.add a b) →
    (∀ (ha : a.toNat < 8) (hb : b.toNat < 8), ∃ t, step s = .next t ∧
      (t.reg ⟨a.toNat, ha⟩).toNat = ((s.reg ⟨a.toNat, ha⟩).toNat + (s.reg ⟨b.toNat, hb⟩).toNat) % 256 ∧
      SameRegsBut [⟨a.toNat, ha⟩] s t ∧ SameMemory s t ∧ t.out = s.out ∧ SameRunState s t ∧
      t.pc.toNat = s.pc.toNat + 3) ∧
    (7 < a.toNat → step s = .next (s.raise (.boundsFault (a.setWidth 9)))) ∧
    (a.toNat ≤ 7 → 7 < b.toNat → step s = .next (s.raise (.boundsFault (b.setWidth 9))))) ∧
  (∀ s : State, s.halted = false → (s.pc.toNat = 254 ∨ s.pc.toNat = 255) →
    s.mem.read s.pc.toNat = Config.opcodes.add → step s = .next (s.raise (.boundsFault 256)))

/-- PUSH (R110). The store may hit any byte, the PUSH's own included (R42). `PUSH R7` stores the
decremented SP (D17, log 12). The bounds fault and the fetch fault are D3 (log 13). -/
def Obligations.StepPush : Prop :=
  (∀ (s : State) (r : RegOperand), s.mem.wf = true → s.runningAt (.push r) →
    (∀ h : r.toNat < 8, ∃ t, step s = .next t ∧ (t.sp.toNat : Int) = ((s.sp.toNat : Int) - 1) % 256 ∧
      pushAddr s = t.sp.toNat ∧
      t.mem.read (pushAddr s) = (if r.toNat = 7 then t.sp else s.reg ⟨r.toNat, h⟩) ∧
      SameMemoryBut (pushAddr s) s t ∧ SameRegsBut [7] s t ∧ t.out = s.out ∧ SameRunState s t ∧
      t.pc.toNat = s.pc.toNat + 2) ∧
    (7 < r.toNat → step s = .next (s.raise (.boundsFault (r.setWidth 9))))) ∧
  (∀ s : State, s.halted = false → s.pc.toNat = 255 → s.mem.read 255 = Config.opcodes.push →
    step s = .next (s.raise (.boundsFault 256)))

/-- POP (R111): the index check, the sentinel test (D7, C2), the load, then the increment, in that order,
so that `POP R7` increments the popped value (D17, log 12). The index check comes first by D9; the bounds
fault and the fetch fault are D3 (log 13). -/
def Obligations.StepPop : Prop :=
  (∀ (s : State) (r : RegOperand), s.runningAt (.pop r) →
    (∀ h : r.toNat < 8, s.sp ≠ 0xF4 → ∃ t, step s = .next t ∧
      (r.toNat ≠ 7 → t.reg ⟨r.toNat, h⟩ = s.mem.read s.sp.toNat ∧ t.sp.toNat = (s.sp.toNat + 1) % 256) ∧
      (r.toNat = 7 → t.sp.toNat = ((s.mem.read s.sp.toNat).toNat + 1) % 256) ∧
      SameMemory s t ∧ SameRegsBut [⟨r.toNat, h⟩, 7] s t ∧ t.out = s.out ∧ SameRunState s t ∧
      t.pc.toNat = s.pc.toNat + 2) ∧
    (r.toNat ≤ 7 → s.sp = 0xF4 → step s = .next (s.raise (.stackUnderflow 0xF4))) ∧
    (7 < r.toNat → step s = .next (s.raise (.boundsFault (r.setWidth 9))))) ∧
  (∀ s : State, s.halted = false → s.pc.toNat = 255 → s.mem.read 255 = Config.opcodes.pop →
    step s = .next (s.raise (.boundsFault 256)))

/-- CALL (R120). The operand is the byte as fetched, even when the push overwrites it (D11, C6); the return
address wraps to 0 for a CALL at 254 (R120 corner case a, log 12); the target of `CALL R7` is the decremented
SP (D17). The bounds fault and the fetch fault are D3 (log 13). -/
def Obligations.StepCall : Prop :=
  (∀ (s : State) (r : RegOperand), s.mem.wf = true → s.runningAt (.call r) →
    (∀ h : r.toNat < 8, ∃ t, step s = .next t ∧ (t.sp.toNat : Int) = ((s.sp.toNat : Int) - 1) % 256 ∧
      pushAddr s = t.sp.toNat ∧ (t.mem.read (pushAddr s)).toNat = (s.pc.toNat + 2) % 256 ∧
      t.pc.toNat = (if r.toNat = 7 then t.sp.toNat else (s.reg ⟨r.toNat, h⟩).toNat) ∧
      SameMemoryBut (pushAddr s) s t ∧ SameRegsBut [7] s t ∧ t.out = s.out ∧ SameRunState s t) ∧
    (7 < r.toNat → step s = .next (s.raise (.boundsFault (r.setWidth 9))))) ∧
  (∀ s : State, s.halted = false → s.pc.toNat = 255 → s.mem.read 255 = Config.opcodes.call →
    step s = .next (s.raise (.boundsFault 256)))

/-- RET (R121): no operand, no fault of its own, no empty-stack test (D12, log 12), at address 255 too, where no
operand byte is read (D3, log 13). -/
def Obligations.StepRet : Prop :=
  ∀ s : State, s.halted = false → s.pc.toNat ≤ 255 → s.mem.read s.pc.toNat = Config.opcodes.ret →
    ∃ t, step s = .next t ∧ t.pc.toNat = (s.mem.read s.sp.toNat).toNat ∧
      t.sp.toNat = (s.sp.toNat + 1) % 256 ∧ SameMemory s t ∧ SameRegsBut [7] s t ∧ t.out = s.out ∧
      SameRunState s t

/-! ### Round trips -/

/-- LDI then PRN of the same register emits exactly the immediate (R92; `out` is D13). -/
def Obligations.LdiThenPrn : Prop :=
  ∀ (s : State) (r : RegOperand) (v : Byte) (h : r.toNat < 8), s.halted = false →
    s.codeAt (encode (.ldi r v) ++ encode (.prn r)) →
    ∃ u t, step s = .next u ∧ step u = .next t ∧ t.out = s.out ++ [v] ∧ t.reg ⟨r.toNat, h⟩ = v ∧
      t.pc.toNat = s.pc.toNat + 5 ∧ SameRegsBut [⟨r.toNat, h⟩] s t ∧ SameMemory s t ∧ SameRunState s t

/-- PUSH then POP carries a value over the stack and restores SP (R112), unless SP is 0xF5, where the push
lands SP on the sentinel and the POP takes a stack underflow (D7, log 13). -/
def Obligations.PushThenPop : Prop :=
  ∀ (s : State) (r d : RegOperand) (hr : r.toNat < 7) (hd : d.toNat < 7), s.mem.wf = true →
    s.halted = false → s.codeAt (encode (.push r) ++ encode (.pop d)) →
    (∀ k, k < 4 → pushAddr s ≠ s.pc.toNat + k) →
    (s.sp ≠ 0xF5 → ∃ u t, step s = .next u ∧ step u = .next t ∧
      t.reg ⟨d.toNat, by omega⟩ = s.reg ⟨r.toNat, by omega⟩ ∧ t.sp = s.sp ∧
      t.mem.read (pushAddr s) = s.reg ⟨r.toNat, by omega⟩ ∧ t.pc.toNat = s.pc.toNat + 4 ∧
      SameRegsBut [⟨d.toNat, by omega⟩] s t ∧ SameMemoryBut (pushAddr s) s t ∧ t.out = s.out ∧
      SameRunState s t) ∧
    (s.sp = 0xF5 → ∃ u, step s = .next u ∧ step u = .next (u.raise (.stackUnderflow 0xF4)))

/-- A RET that finds SP as CALL left it and the pushed cell untouched resumes behind the CALL, with SP as
before it; behind a CALL at 254 that is address 0 (R122, R120 corner case a, log 12). The RET may find SP at
0xF4, and makes no test (D12). -/
def Obligations.CallThenRet : Prop :=
  ∀ (s : State) (r : RegOperand), r.toNat < 8 → s.mem.wf = true → s.runningAt (.call r) →
    ∃ u, step s = .next u ∧
      ∀ w : State, w.runningAt .ret → w.sp = u.sp →
        w.mem.read (pushAddr s) = u.mem.read (pushAddr s) →
        ∃ t, step w = .next t ∧ t.sp = s.sp ∧
          t.pc.toNat = (if s.pc.toNat ≤ 253 then s.pc.toNat + 2 else 0)

/-- A byte PUSH stores behind itself is what the very next step fetches (R42): an HLT there halts, an
unknown opcode there takes `ILLEGAL_OPCODE` with that byte, which is R73 and the spec's decision D6
(log 13). -/
def Obligations.NextFetchSeesStore : Prop :=
  ∀ (s : State) (r : RegOperand) (h : r.toNat < 7), s.mem.wf = true → s.runningAt (.push r) →
    pushAddr s = s.pc.toNat + 2 →
    ∃ u, step s = .next u ∧
      (s.reg ⟨r.toNat, by omega⟩ = Config.opcodes.hlt → step u = .next u.halt) ∧
      ((∀ k, Config.opcodes.opcode k ≠ s.reg ⟨r.toNat, by omega⟩) →
        step u = .next (u.raise (.illegalOpcode (s.reg ⟨r.toNat, by omega⟩))))

/-! ### Rules of the whole machine -/

/-- Every state has a next state: no step ends outside the spec's own states (R70, R77, R171). That a fault
is a next state is R135 with D5 and the model's reading (log 2); that a halted machine answers itself is
D16. -/
def Obligations.StepAlwaysAnswers : Prop := ∀ s : State, ∃ t, step s = .next t

/-- Faults are precise (R136, D8): a step that takes a fault changes `halted`, `fault` and `fault_info` and
nothing else. -/
def Obligations.FaultsArePrecise : Prop :=
  ∀ s t : State, s.fault = .none → step s = .next t → t.fault ≠ .none → ∃ e : Trap, t = s.raise e

/-- The checks of a step, in the order of R140 (D9): the first that fails is the fault taken, and when none
fails the instruction completes without a fault. The checks themselves are the spec's decisions D3 (bounds),
D4 (`pc` past 255), D6 (unknown opcode) and D7 (underflow); log 13. -/
def Obligations.FaultPriority : Prop :=
  ∀ s : State, s.halted = false →
    match firstFailedCheck s with
    | some e => step s = .next (s.raise e)
    | none => ∃ t, step s = .next t ∧ t.fault = s.fault ∧ t.faultInfo = s.faultInfo ∧
        (t.halted = true ↔ s.runningAt .hlt)

/-- The three ends of a run (R80): a normal halt is reached only by executing HLT, an unknown-opcode stop
only by a byte outside the dispatch table, and every other stop is one of the other faults (D5, D6; the checks
are D3, D4 and D7, log 13). -/
def Obligations.StopKinds : Prop :=
  ∀ s t : State, s.halted = false → s.fault = .none → step s = .next t →
    (t.stopKind = some .normalHalt ↔ s.runningAt .hlt) ∧
    (t.stopKind = some .unknownOpcode ↔
      s.pc.toNat ≤ 255 ∧ ∀ k, Config.opcodes.opcode k ≠ s.mem.read s.pc.toNat) ∧
    (t.stopKind = some .faultStop ↔
      ∃ e, firstFailedCheck s = some e ∧ ∀ ir, e ≠ .illegalOpcode ir)

/-- How each instruction leaves `pc` (R15). CALL's register is read after the push, so it is the register
of the state after the step. -/
def Obligations.PcTable : Prop :=
  ∀ s t : State, s.halted = false → s.fault = .none → step s = .next t →
    (t.fault ≠ .none → t.pc = s.pc) ∧
    (t.fault = .none → ∀ i : Instr, s.runningAt i →
      match i with
      | .hlt => t.pc = s.pc
      | .ldi _ _ => t.pc.toNat = s.pc.toNat + 3
      | .mul _ _ => t.pc.toNat = s.pc.toNat + 3
      | .add _ _ => t.pc.toNat = s.pc.toNat + 3
      | .prn _ => t.pc.toNat = s.pc.toNat + 2
      | .push _ => t.pc.toNat = s.pc.toNat + 2
      | .pop _ => t.pc.toNat = s.pc.toNat + 2
      | .call r => ∃ h : r.toNat < 8, t.pc.toNat = (t.reg ⟨r.toNat, h⟩).toNat
      | .ret => t.pc.toNat = (s.mem.read s.sp.toNat).toNat)

/-- The table of registers read and written (R13). Two states that differ only in registers the
instruction does not read get the same effect: the same written registers, memory, `pc`, output and run
state; and no register outside the written ones changes. The faults are D3 and D7 (log 13), the order of
the assignments of `POP R7`, `PUSH R7` and `CALL R7` is D17 (log 12). -/
def Obligations.RegistersReadAndWritten : Prop :=
  ∀ (i : Instr) (s : State) (regs' : Vector Byte 8),
    (∀ j, j ∈ readRegs i → ({ s with regs := regs' } : State).reg j = s.reg j) →
    ∃ t t', exec i s = .next t ∧ exec i { s with regs := regs' } = .next t' ∧
      t'.pc = t.pc ∧ t'.mem = t.mem ∧ t'.out = t.out ∧ SameRunState t t' ∧
      SameRegsBut (writtenRegs i) s t ∧ SameRegsBut (writtenRegs i) { s with regs := regs' } t' ∧
      ((∀ j, j ∈ writtenRegs i → t'.reg j = t.reg j) ∨
        (∃ e : Trap, t = s.raise e ∧ t' = ({ s with regs := regs' } : State).raise e))

/-- `out` only grows, by at most one byte a step and only by PRN, and nothing reads it back (R20, R22,
D13). -/
def Obligations.OutputOnlyGrowsAndIsNotRead : Prop :=
  ∀ (s t : State) (o : List Byte), step s = .next t →
    ∃ e : List Byte, t.out = s.out ++ e ∧ e.length ≤ 1 ∧ (e ≠ [] → ∃ r, s.runningAt (.prn r)) ∧
      step { s with out := o } = .next { t with out := o ++ e }

/-- `fault` and `fault_info` are read by the host only (R18, D5): no step depends on them, and no step
changes them once the machine is halted. -/
def Obligations.FaultRegistersNotRead : Prop :=
  ∀ (s t : State) (f : FaultCode) (n : PcWord), step s = .next t →
    (∃ t', step { s with fault := f, faultInfo := n } = .next t' ∧ t'.regs = t.regs ∧ t'.pc = t.pc ∧
      t'.mem = t.mem ∧ t'.halted = t.halted ∧ t'.out = t.out) ∧
    (s.halted = true → t.fault = s.fault ∧ t.faultInfo = s.faultInfo)

/-- `halted` (R16): set by HLT and by every fault, the unknown opcode included, by nothing else, cleared by
no step and by no host transaction but reset, and read by no instruction. The faults are the first failed
checks of R140. -/
def Obligations.HaltedWrittenOnlyByStops : Prop :=
  (∀ s t : State, step s = .next t →
    (s.halted = true → t.halted = true) ∧
    (s.halted = false →
      (t.halted = true ↔ s.runningAt .hlt ∨ ∃ e, firstFailedCheck s = some e))) ∧
  (∀ (i : Instr) (s : State) (b : Bool), ∃ t t', exec i s = .next t ∧
    exec i { s with halted := b } = .next t' ∧ t'.regs = t.regs ∧ t'.pc = t.pc ∧ t'.mem = t.mem ∧
    t'.out = t.out ∧ t'.fault = t.fault ∧ t'.faultInfo = t.faultInfo) ∧
  (∀ (c c' : Session) (t : Transaction), c.core.halted = true → c.transact t = some c' →
    t = .reset ∨ c'.core.halted = true)
end

