-- ==== Sys2Proof/Laws/Decode.lean ====
section
/-! SUPPORT. The dispatch key and the operand bytes: small lemmas of the decoder and the encoder. -/

namespace Sys2Proof

/-- The list of rows holds every row. -/
@[simp] theorem Mnemonic.mem_all (k : Mnemonic) : k ∈ Mnemonic.all := by cases k <;> decide

theorem OpcodeMap.Valid.distinct {m : OpcodeMap} (h : m.Valid) {k k' : Mnemonic}
    (he : m.opcode k = m.opcode k') : k = k' :=
  h.1 k (Mnemonic.mem_all k) k' (Mnemonic.mem_all k') he

theorem OpcodeMap.Valid.nOps {m : OpcodeMap} (h : m.Valid) (k : Mnemonic) : opcodeNOps (m.opcode k) = k.nOps :=
  h.2.1 k (Mnemonic.mem_all k)

theorem OpcodeMap.Valid.setsPc {m : OpcodeMap} (h : m.Valid) (k : Mnemonic) :
    opcodeSetsPc (m.opcode k) = k.setsPc :=
  h.2.2 k (Mnemonic.mem_all k)

/-- A hit is a row whose byte is the opcode. -/
theorem OpcodeMap.opcode_of_lookup {m : OpcodeMap} {ir : Byte} {k : Mnemonic} (h : m.lookup ir = some k) :
    m.opcode k = ir := by
  simpa using List.find?_some h

/-- A miss is a byte that no row has. -/
theorem OpcodeMap.lookup_none {m : OpcodeMap} {ir : Byte} : m.lookup ir = none ↔ ∀ k, m.opcode k ≠ ir := by
  simp [OpcodeMap.lookup]

/-- Under a legal assignment a row's byte finds that row. -/
theorem OpcodeMap.Valid.lookup_opcode {m : OpcodeMap} (h : m.Valid) (k : Mnemonic) :
    m.lookup (m.opcode k) = some k := by
  cases hl : m.lookup (m.opcode k) with
  | none => exact absurd rfl (OpcodeMap.lookup_none.1 hl k)
  | some k' => rw [h.distinct (OpcodeMap.opcode_of_lookup hl)]

theorem OpcodeMap.Valid.lookup_eq_some {m : OpcodeMap} (h : m.Valid) {ir : Byte} {k : Mnemonic} :
    m.lookup ir = some k ↔ ir = m.opcode k :=
  ⟨fun hl => (OpcodeMap.opcode_of_lookup hl).symm, fun he => he ▸ h.lookup_opcode k⟩

/-- An instruction has as many operand bytes as its row says. -/
@[simp] theorem Instr.length_operands (i : Instr) : i.operands.length = i.mnemonic.nOps := by
  cases i <;> simp [Instr.operands, Instr.mnemonic, Mnemonic.nOps]

/-! ### The three formats (R51) -/

theorem buildF0_eq_some {i j : Instr} {bs : List Byte} : buildF0 i bs = some j ↔ bs = [] ∧ j = i := by
  cases bs <;> simp [buildF0, eq_comm]

theorem buildF1_eq_some {f : Byte → Instr} {j : Instr} {bs : List Byte} :
    buildF1 f bs = some j ↔ ∃ a, bs = [a] ∧ j = f a := by
  cases bs <;> simp [buildF1, buildF0_eq_some]

theorem buildF2_eq_some {f : Byte → Byte → Instr} {j : Instr} {bs : List Byte} :
    buildF2 f bs = some j ↔ ∃ a b, bs = [a, b] ∧ j = f a b := by
  cases bs <;> simp [buildF2, buildF1_eq_some]

/-- A row and its operand bytes give the instruction back. -/
@[simp] theorem Instr.build_operands (i : Instr) : Instr.build i.mnemonic i.operands = some i := by
  cases i <;> rfl

/-- An instruction built from a row and bytes has that row and those bytes. -/
theorem Instr.of_build {k : Mnemonic} {bs : List Byte} {i : Instr} (h : Instr.build k bs = some i) :
    i.mnemonic = k ∧ i.operands = bs := by
  cases k <;> simp only [Instr.build, buildF0_eq_some, buildF1_eq_some, buildF2_eq_some] at h
  case hlt | ret => obtain ⟨rfl, rfl⟩ := h; exact ⟨rfl, rfl⟩
  case prn | push | pop | call => obtain ⟨a, rfl, rfl⟩ := h; exact ⟨rfl, rfl⟩
  case ldi | mul | add => obtain ⟨a, b, rfl, rfl⟩ := h; exact ⟨rfl, rfl⟩

/-- A row with its number of operand bytes is an instruction. -/
theorem Instr.build_isSome {k : Mnemonic} {bs : List Byte} (h : bs.length = k.nOps) :
    ∃ i, Instr.build k bs = some i := by
  cases k <;> simp only [Mnemonic.nOps] at h
  case hlt | ret => exact ⟨_, by rw [List.length_eq_zero_iff.1 h]; rfl⟩
  case prn | push | pop | call => obtain ⟨a, rfl⟩ := List.length_eq_one_iff.1 h; exact ⟨_, rfl⟩
  case ldi | mul | add => obtain ⟨a, b, rfl⟩ := List.length_eq_two.1 h; exact ⟨_, rfl⟩

/-- The opcode byte of a legal assignment tells the length of the encoding. -/
theorem OpcodeMap.Valid.length_encode {m : OpcodeMap} (h : m.Valid) (i : Instr) :
    (encodeWith m i).length = opcodeLength (m.opcode i.mnemonic) := by
  simp [encodeWith, opcodeLength, h.nOps]

/-- What the decoder answers for a row's byte with its operand bytes and nothing behind them. -/
theorem decodeWith_exact {m : OpcodeMap} {ir : Byte} {k : Mnemonic} {ops : List Byte} (hl : m.lookup ir = some k)
    (hn : ops.length = opcodeNOps ir) {i : Instr} (hb : Instr.build k ops = some i) :
    decodeWith m (ir :: ops) = .ok (i, []) := by
  simp [decodeWith, hl, ← hn, hb]

/-- The default assignment is legal (R56). -/
theorem opcodes_valid : Config.opcodes.Valid := by decide

/-- A mask of two bits after a shift is the field 7:6. -/
theorem opcodeNOps_eq (ir : Byte) : opcodeNOps ir = ((ir >>> 6) &&& 0b11#8).toNat := by
  revert ir; decide

end Sys2Proof
end

