-- ==== Sys2Proof/Laws/Memory.lean ====
section
/-! SUPPORT. What a read gives after a write, and that every memory operation keeps the canonical form. -/

namespace Sys2Proof.Machine

/-! ### The canonical form -/

theorem wfCells_cons {lo k : Nat} {v : Byte} {t : List Host.Cell} :
    wfCells lo ((k, v) :: t) = true ↔ lo ≤ k ∧ k < 256 ∧ v ≠ 0 ∧ wfCells (k + 1) t = true := by
  simp only [wfCells, Bool.and_eq_true, decide_eq_true_eq, and_assoc]
  rfl

theorem wfCells_mono {lo lo' : Nat} (h : lo' ≤ lo) {cs : List Host.Cell} (hw : wfCells lo cs = true) :
    wfCells lo' cs = true := by
  cases cs with
  | nil => rfl
  | cons c t =>
    obtain ⟨k, v⟩ := c
    rw [wfCells_cons] at hw ⊢
    exact ⟨by omega, hw.2⟩

/-- A cell below every listed address reads as reset left it. -/
theorem readCells_below {lo a : Nat} (h : a < lo) {cs : List Host.Cell} (hw : wfCells lo cs = true) :
    readCells cs a = 0 := by
  induction cs generalizing lo with
  | nil => rfl
  | cons c t ih =>
    obtain ⟨k, v⟩ := c
    rw [wfCells_cons] at hw
    have : k ≠ a := by omega
    simp only [readCells, this, if_false]
    exact ih (by omega) hw.2.2.2

theorem wfCells_writeCells {lo a : Nat} (hlo : lo ≤ a) (ha : a < 256) (v : Byte) {cs : List Host.Cell}
    (hw : wfCells lo cs = true) : wfCells lo (writeCells cs a v) = true := by
  induction cs generalizing lo with
  | nil =>
    simp only [writeCells]
    split
    · rfl
    · next h => rw [wfCells_cons]; exact ⟨hlo, ha, h, rfl⟩
  | cons c t ih =>
    obtain ⟨k, w⟩ := c
    have hw' := wfCells_cons.1 hw
    simp only [writeCells]
    split
    · next hak =>
      split
      · exact hw
      · next h =>
        rw [wfCells_cons]
        exact ⟨hlo, ha, h, wfCells_cons.2 ⟨by omega, hw'.2⟩⟩
    · split
      · next hak =>
        subst hak
        split
        · exact wfCells_mono (by omega) hw'.2.2.2
        · next h => exact wfCells_cons.2 ⟨hlo, ha, h, hw'.2.2.2⟩
      · exact wfCells_cons.2 ⟨hw'.1, hw'.2.1, hw'.2.2.1, ih (by omega) hw'.2.2.2⟩

/-- Reading after a write, on the list. -/
theorem readCells_writeCells {lo : Nat} {cs : List Host.Cell} (hw : wfCells lo cs = true) (a b : Nat) (v : Byte) :
    readCells (writeCells cs a v) b = if b = a then v else readCells cs b := by
  induction cs generalizing lo with
  | nil =>
    by_cases hv : v = Config.memReset <;> simp [writeCells, readCells, hv, eq_comm]
  | cons c t ih =>
    obtain ⟨k, w⟩ := c
    have hw' := wfCells_cons.1 hw
    simp only [writeCells]
    split
    · next hak =>
      have hr : readCells ((k, w) :: t) a = 0 := readCells_below hak (wfCells_cons.2 ⟨le_refl k, hw'.2⟩)
      by_cases hb : b = a
      · subst hb
        split
        · next h => rw [hr, if_pos rfl, h]; rfl
        · simp [readCells]
      · rw [if_neg hb]
        split
        · rfl
        · simp [readCells, Ne.symm hb]
    · split
      · next hak =>
        subst hak
        by_cases hb : b = a
        · subst hb
          split
          · next h => rw [readCells_below (lo := b + 1) (by omega) hw'.2.2.2, if_pos rfl, h]; rfl
          · simp [readCells]
        · split
          · simp [readCells, Ne.symm hb]
          · simp [readCells, Ne.symm hb]
      · next hak hne =>
        simp only [readCells]
        by_cases hk : k = b
        · subst hk; simp [Ne.symm hne]
        · simp only [hk, if_false]; exact ih hw'.2.2.2

/-! ### The operations of Memory -/

/-- A write keeps the canonical form. -/
theorem Memory.wf_write {m : Memory} (hw : m.wf = true) {a : Nat} (ha : a < 256) (v : Byte) :
    (m.write a v).wf = true :=
  wfCells_writeCells (Nat.zero_le a) ha v hw

/-- A read after a write. -/
theorem Memory.read_write {m : Memory} (hw : m.wf = true) (a b : Nat) (v : Byte) :
    (m.write a v).read b = if b = a then v else m.read b :=
  readCells_writeCells (lo := 0) hw a b v

theorem Memory.read_write_same {m : Memory} (hw : m.wf = true) (a : Nat) (v : Byte) :
    (m.write a v).read a = v := by
  simp [Memory.read_write hw]

theorem Memory.read_write_other {m : Memory} (hw : m.wf = true) {a b : Nat} (h : b ≠ a) (v : Byte) :
    (m.write a v).read b = m.read b := by
  simp [Memory.read_write hw, h]

/-- Storing a list of bytes keeps the canonical form. -/
theorem Memory.wf_writeList {m : Memory} (hw : m.wf = true) (a : Nat) (vs : List Byte) :
    (m.writeList a vs).wf = true := by
  induction vs generalizing m a with
  | nil => exact hw
  | cons v vs ih =>
    simp only [Memory.writeList]
    split
    · next h => exact ih (Memory.wf_write hw h v) (a + 1)
    · exact hw

/-- A read after storing a list of bytes that fits below 256. -/
theorem Memory.read_writeList {m : Memory} (hw : m.wf = true) (a : Nat) (vs : List Byte)
    (hfit : a + vs.length ≤ 256) (b : Nat) :
    (m.writeList a vs).read b =
      if h : a ≤ b ∧ b - a < vs.length then vs[b - a]'h.2 else m.read b := by
  induction vs generalizing m a with
  | nil => simp [Memory.writeList]
  | cons v vs ih =>
    have ha : a < Config.memSize := by simp [Config.memSize] at *; omega
    simp only [Memory.writeList, ha, if_true]
    rw [ih (Memory.wf_write hw ha v) (a + 1) (by simp at hfit; omega), Memory.read_write hw]
    by_cases hb : b = a
    · subst hb; simp
    · by_cases hc : a + 1 ≤ b ∧ b - (a + 1) < vs.length
      · have hd : a ≤ b ∧ b - a < (v :: vs).length := by simp; omega
        have he : b - a = (b - (a + 1)) + 1 := by omega
        simp only [hc, hd, and_self, dif_pos]
        simp [he]
      · have hd : ¬(a ≤ b ∧ b - a < (v :: vs).length) := by simp; omega
        simp only [hc, hd, dif_neg, not_false_eq_true, hb, if_false]

/-- Memories in canonical form that read the same are the same data. -/
theorem wfCells_ext {lo : Nat} {cs ds : List Host.Cell} (hc : wfCells lo cs = true) (hd : wfCells lo ds = true)
    (h : ∀ a, readCells cs a = readCells ds a) : cs = ds := by
  induction cs generalizing lo ds with
  | nil =>
    cases ds with
    | nil => rfl
    | cons d t =>
      obtain ⟨k, v⟩ := d
      have := h k
      simp only [readCells, if_true] at this
      exact absurd this.symm (wfCells_cons.1 hd).2.2.1
  | cons c t ih =>
    obtain ⟨k, v⟩ := c
    have hc' := wfCells_cons.1 hc
    cases ds with
    | nil =>
      have := h k
      simp only [readCells, if_true] at this
      exact absurd this hc'.2.2.1
    | cons d u =>
      obtain ⟨l, w⟩ := d
      have hd' := wfCells_cons.1 hd
      rcases lt_trichotomy k l with hkl | hkl | hkl
      · have := h k
        rw [readCells_below hkl (wfCells_cons.2 ⟨le_refl l, hd'.2⟩)] at this
        simp only [readCells, if_true] at this
        exact absurd this hc'.2.2.1
      · subst hkl
        have hv : v = w := by simpa [readCells] using h k
        subst hv
        rw [ih hc'.2.2.2 hd'.2.2.2 fun a => ?_]
        by_cases ha : k = a
        · subst ha
          rw [readCells_below (lo := k + 1) (by omega) hc'.2.2.2,
            readCells_below (lo := k + 1) (by omega) hd'.2.2.2]
        · simpa [readCells, ha] using h a
      · have := h l
        rw [readCells_below hkl (wfCells_cons.2 ⟨le_refl k, hc'.2⟩)] at this
        simp only [readCells, if_true] at this
        exact absurd this.symm hd'.2.2.1

theorem Memory.ext_read {m n : Memory} (hm : m.wf = true) (hn : n.wf = true) (h : ∀ a, m.read a = n.read a) :
    m = n := by
  obtain ⟨cs⟩ := m
  obtain ⟨ds⟩ := n
  exact congrArg Memory.mk (wfCells_ext (lo := 0) hm hn h)

/-- Reset's memory lists nothing, is in canonical form, and reads 0x00 everywhere (R161). -/
theorem reset_mem_wf : State.reset.mem.wf = true := rfl

theorem reset_mem_read (a : Nat) : State.reset.mem.read a = 0 := rfl

end Sys2Proof.Machine
end

