-- ==== Sys2Proof/Laws/State.lean ====
section
/-! SUPPORT. One lemma per field per update of State, true by rfl, and what a register reads after each
update, so that no later proof unfolds a record update. -/

namespace Sys2Proof.Machine

/-! ### `State.halt` -/

@[simp] theorem State.halt_regs (s : State) : s.halt.regs = s.regs := rfl
@[simp] theorem State.halt_pc (s : State) : s.halt.pc = s.pc := rfl
@[simp] theorem State.halt_mem (s : State) : s.halt.mem = s.mem := rfl
@[simp] theorem State.halt_halted (s : State) : s.halt.halted = true := rfl
@[simp] theorem State.halt_fault (s : State) : s.halt.fault = s.fault := rfl
@[simp] theorem State.halt_faultInfo (s : State) : s.halt.faultInfo = s.faultInfo := rfl
@[simp] theorem State.halt_out (s : State) : s.halt.out = s.out := rfl

/-! ### `State.setReg` -/

@[simp] theorem State.setReg_regs (s : State) (i : Fin 8) (v : Int) : (s.setReg i v).regs = s.regs.set i (wrap8 v) := rfl
@[simp] theorem State.setReg_pc (s : State) (i : Fin 8) (v : Int) : (s.setReg i v).pc = s.pc := rfl
@[simp] theorem State.setReg_mem (s : State) (i : Fin 8) (v : Int) : (s.setReg i v).mem = s.mem := rfl
@[simp] theorem State.setReg_halted (s : State) (i : Fin 8) (v : Int) : (s.setReg i v).halted = s.halted := rfl
@[simp] theorem State.setReg_fault (s : State) (i : Fin 8) (v : Int) : (s.setReg i v).fault = s.fault := rfl
@[simp] theorem State.setReg_faultInfo (s : State) (i : Fin 8) (v : Int) : (s.setReg i v).faultInfo = s.faultInfo := rfl
@[simp] theorem State.setReg_out (s : State) (i : Fin 8) (v : Int) : (s.setReg i v).out = s.out := rfl

/-! ### `State.setMem` -/

@[simp] theorem State.setMem_regs (s : State) (m : Memory) : (s.setMem m).regs = s.regs := rfl
@[simp] theorem State.setMem_pc (s : State) (m : Memory) : (s.setMem m).pc = s.pc := rfl
@[simp] theorem State.setMem_mem (s : State) (m : Memory) : (s.setMem m).mem = m := rfl
@[simp] theorem State.setMem_halted (s : State) (m : Memory) : (s.setMem m).halted = s.halted := rfl
@[simp] theorem State.setMem_fault (s : State) (m : Memory) : (s.setMem m).fault = s.fault := rfl
@[simp] theorem State.setMem_faultInfo (s : State) (m : Memory) : (s.setMem m).faultInfo = s.faultInfo := rfl
@[simp] theorem State.setMem_out (s : State) (m : Memory) : (s.setMem m).out = s.out := rfl

/-! ### `State.setPc` -/

@[simp] theorem State.setPc_regs (s : State) (p : PcWord) : (s.setPc p).regs = s.regs := rfl
@[simp] theorem State.setPc_pc (s : State) (p : PcWord) : (s.setPc p).pc = p := rfl
@[simp] theorem State.setPc_mem (s : State) (p : PcWord) : (s.setPc p).mem = s.mem := rfl
@[simp] theorem State.setPc_halted (s : State) (p : PcWord) : (s.setPc p).halted = s.halted := rfl
@[simp] theorem State.setPc_fault (s : State) (p : PcWord) : (s.setPc p).fault = s.fault := rfl
@[simp] theorem State.setPc_faultInfo (s : State) (p : PcWord) : (s.setPc p).faultInfo = s.faultInfo := rfl
@[simp] theorem State.setPc_out (s : State) (p : PcWord) : (s.setPc p).out = s.out := rfl

/-! ### `State.output` -/

@[simp] theorem State.output_regs (s : State) (v : Byte) : (s.output v).regs = s.regs := rfl
@[simp] theorem State.output_pc (s : State) (v : Byte) : (s.output v).pc = s.pc := rfl
@[simp] theorem State.output_mem (s : State) (v : Byte) : (s.output v).mem = s.mem := rfl
@[simp] theorem State.output_halted (s : State) (v : Byte) : (s.output v).halted = s.halted := rfl
@[simp] theorem State.output_fault (s : State) (v : Byte) : (s.output v).fault = s.fault := rfl
@[simp] theorem State.output_faultInfo (s : State) (v : Byte) : (s.output v).faultInfo = s.faultInfo := rfl
@[simp] theorem State.output_out (s : State) (v : Byte) : (s.output v).out = s.out ++ [v] := rfl

/-! ### `State.raise` -/

@[simp] theorem State.raise_regs (s : State) (t : Trap) : (s.raise t).regs = s.regs := rfl
@[simp] theorem State.raise_pc (s : State) (t : Trap) : (s.raise t).pc = s.pc := rfl
@[simp] theorem State.raise_mem (s : State) (t : Trap) : (s.raise t).mem = s.mem := rfl
@[simp] theorem State.raise_halted (s : State) (t : Trap) : (s.raise t).halted = true := rfl
@[simp] theorem State.raise_fault (s : State) (t : Trap) : (s.raise t).fault = t.code := rfl
@[simp] theorem State.raise_faultInfo (s : State) (t : Trap) : (s.raise t).faultInfo = t.info := rfl
@[simp] theorem State.raise_out (s : State) (t : Trap) : (s.raise t).out = s.out := rfl

/-! ### `State.decSp` -/

@[simp] theorem State.decSp_pc (s : State) : s.decSp.pc = s.pc := rfl
@[simp] theorem State.decSp_mem (s : State) : s.decSp.mem = s.mem := rfl
@[simp] theorem State.decSp_halted (s : State) : s.decSp.halted = s.halted := rfl
@[simp] theorem State.decSp_fault (s : State) : s.decSp.fault = s.fault := rfl
@[simp] theorem State.decSp_faultInfo (s : State) : s.decSp.faultInfo = s.faultInfo := rfl
@[simp] theorem State.decSp_out (s : State) : s.decSp.out = s.out := rfl

/-! ### `State.incSp` -/

@[simp] theorem State.incSp_pc (s : State) : s.incSp.pc = s.pc := rfl
@[simp] theorem State.incSp_mem (s : State) : s.incSp.mem = s.mem := rfl
@[simp] theorem State.incSp_halted (s : State) : s.incSp.halted = s.halted := rfl
@[simp] theorem State.incSp_fault (s : State) : s.incSp.fault = s.fault := rfl
@[simp] theorem State.incSp_faultInfo (s : State) : s.incSp.faultInfo = s.faultInfo := rfl
@[simp] theorem State.incSp_out (s : State) : s.incSp.out = s.out := rfl
/-! ### Registers after an update -/

theorem State.reg_setReg (s : State) (i j : Fin 8) (v : Int) :
    (s.setReg i v).reg j = if i = j then wrap8 v else s.reg j := by
  simp only [State.reg, State.setReg, Fin.getElem_fin, Vector.getElem_set, Fin.val_inj]

@[simp] theorem State.reg_setReg_same (s : State) (i : Fin 8) (v : Int) : (s.setReg i v).reg i = wrap8 v := by
  simp [State.reg_setReg]

/-- A byte written back is read back. -/
theorem State.reg_setReg_byte (s : State) (i : Fin 8) (v : Byte) : (s.setReg i v.toNat).reg i = v := by
  rw [State.reg_setReg_same]
  simp [wrap8]

theorem State.reg_setReg_other (s : State) {i j : Fin 8} (h : j ≠ i) (v : Int) :
    (s.setReg i v).reg j = s.reg j := by
  simp [State.reg_setReg, h.symm]

@[simp] theorem State.halt_reg (s : State) (j : Fin 8) : s.halt.reg j = s.reg j := rfl
@[simp] theorem State.setMem_reg (s : State) (m : Memory) (j : Fin 8) : (s.setMem m).reg j = s.reg j := rfl
@[simp] theorem State.setPc_reg (s : State) (p : PcWord) (j : Fin 8) : (s.setPc p).reg j = s.reg j := rfl
@[simp] theorem State.output_reg (s : State) (v : Byte) (j : Fin 8) : (s.output v).reg j = s.reg j := rfl
@[simp] theorem State.raise_reg (s : State) (t : Trap) (j : Fin 8) : (s.raise t).reg j = s.reg j := rfl

/-- Two states with the same register file read the same in every register. -/
theorem State.reg_congr {s t : State} (h : t.regs = s.regs) (j : Fin 8) : t.reg j = s.reg j := by
  simp [State.reg, h]

/-- Register files that read the same are the same. -/
theorem State.regs_ext {s t : State} (h : ∀ j, t.reg j = s.reg j) : t.regs = s.regs := by
  apply Vector.ext
  intro k hk
  simpa [State.reg] using h ⟨k, hk⟩

/-! ### SP -/

@[simp] theorem State.sp_eq (s : State) : s.reg 7 = s.sp := rfl

/-- An 8-bit value written back is stored unchanged (R90: "it is already 8 bits"). -/
@[simp] theorem wrap8_toNat (v : Byte) : wrap8 (v.toNat : Int) = v := by
  simp [wrap8]

/-- A write stores its value modulo 256 (R12). -/
theorem wrap8_natCast (n : Nat) : wrap8 (n : Int) = BitVec.ofNat 8 n := by
  simp [wrap8]

/-- `wrap8` is the mathematical modulus (R6). -/
theorem wrap8_toInt_mod (v : Int) : ((wrap8 v).toNat : Int) = v % 256 := by
  have h : 0 ≤ v % 256 := Int.emod_nonneg v (by decide)
  simp [wrap8, BitVec.toNat_ofInt]
  omega

/-- SP after the decrement of PUSH and CALL, as a byte. -/
@[simp] theorem State.decSp_sp (s : State) : s.decSp.sp = s.sp - 1 := by
  show (s.setReg Config.spIndex _).reg Config.spIndex = _
  rw [State.reg_setReg_same]
  apply BitVec.eq_of_toNat_eq
  have h := wrap8_toInt_mod ((s.sp.toNat : Int) - 1)
  rw [BitVec.toNat_sub]
  show _ = (2 ^ 8 - 1 + s.sp.toNat) % 2 ^ 8
  omega

/-- SP after the increment of POP and RET, as a byte. -/
@[simp] theorem State.incSp_sp (s : State) : s.incSp.sp = s.sp + 1 := by
  show (s.setReg Config.spIndex _).reg Config.spIndex = _
  rw [State.reg_setReg_same]
  apply BitVec.eq_of_toNat_eq
  have h := wrap8_toInt_mod ((s.sp.toNat : Int) + 1)
  rw [BitVec.toNat_add]
  show _ = (s.sp.toNat + 1) % 2 ^ 8
  omega

theorem State.decSp_reg_other (s : State) {j : Fin 8} (h : j ≠ 7) : s.decSp.reg j = s.reg j :=
  State.reg_setReg_other s h _

theorem State.incSp_reg_other (s : State) {j : Fin 8} (h : j ≠ 7) : s.incSp.reg j = s.reg j :=
  State.reg_setReg_other s h _

theorem State.decSp_reg (s : State) (j : Fin 8) : s.decSp.reg j = if j = 7 then s.sp - 1 else s.reg j := by
  split
  · next h => subst h; exact s.decSp_sp
  · next h => exact s.decSp_reg_other h

theorem State.incSp_reg (s : State) (j : Fin 8) : s.incSp.reg j = if j = 7 then s.sp + 1 else s.reg j := by
  split
  · next h => subst h; exact s.incSp_sp
  · next h => exact s.incSp_reg_other h

@[simp] theorem State.setMem_sp (s : State) (m : Memory) : (s.setMem m).sp = s.sp := rfl
@[simp] theorem State.setPc_sp (s : State) (p : PcWord) : (s.setPc p).sp = s.sp := rfl
@[simp] theorem State.output_sp (s : State) (v : Byte) : (s.output v).sp = s.sp := rfl
@[simp] theorem State.raise_sp (s : State) (t : Trap) : (s.raise t).sp = s.sp := rfl
@[simp] theorem State.halt_sp (s : State) : s.halt.sp = s.sp := rfl

/-- SP does not move when the register file stays. -/
theorem State.sp_congr {s t : State} (h : t.regs = s.regs) : t.sp = s.sp := State.reg_congr h _

end Sys2Proof.Machine
end

