-- ==== Sys2Proof/Laws/Ops.lean ====
section
/-! SUPPORT. One lemma per shared operation: everything it can answer. -/

namespace Sys2Proof.Machine

@[simp] theorem checked_bind_ok {α β : Type} (a : α) (f : α → Checked β) : (Except.ok a >>= f) = f a := rfl

@[simp] theorem checked_bind_error {α β : Type} (t : Trap) (f : α → Checked β) :
    ((Except.error t : Checked α) >>= f) = Except.error t := rfl

@[simp] theorem attempt_ok (s s' : State) : attempt s (.ok s') = .next s' := rfl

@[simp] theorem attempt_error (s : State) (t : Trap) : attempt s (.error t) = .next (s.raise t) := rfl

/-- An attempt answers a next state: the completed one, or the fault taken from the start state. -/
theorem attempt_cases (s : State) (r : Checked State) :
    (∃ s', r = .ok s' ∧ attempt s r = .next s') ∨ (∃ t, r = .error t ∧ attempt s r = .next (s.raise t)) := by
  cases r with
  | ok s' => exact .inl ⟨s', rfl, rfl⟩
  | error t => exact .inr ⟨t, rfl, rfl⟩

/-! ### Memory access -/

theorem memRead_ok (s : State) {a : Nat} (h : a ≤ 255) : memRead s a = .ok (s.mem.read a) :=
  if_pos (Nat.lt_succ_of_le h)

theorem memRead_error (s : State) {a : Nat} (h : 255 < a) :
    memRead s a = .error (.boundsFault (BitVec.ofNat 9 a)) :=
  if_neg (Nat.not_lt.2 h)

theorem memRead_eq_ok {s : State} {a : Nat} {v : Byte} : memRead s a = .ok v ↔ a ≤ 255 ∧ v = s.mem.read a := by
  by_cases h : a ≤ 255
  · simp [memRead_ok s h, h, eq_comm]
  · simp [memRead_error s (Nat.lt_of_not_le h), h]

/-- A byte is always an address: "no data access can be out of range" (R32). -/
@[simp] theorem memRead_byte (s : State) (b : Byte) : memRead s b.toNat = .ok (s.mem.read b.toNat) :=
  memRead_ok s (Nat.le_of_lt_succ b.isLt)

theorem memWrite_ok (s : State) {a : Nat} (h : a ≤ 255) (v : Int) :
    memWrite s a v = .ok (wrap8 v, s.setMem (s.mem.write a (wrap8 v))) :=
  if_pos (Nat.lt_succ_of_le h)

theorem memWrite_error (s : State) {a : Nat} (h : 255 < a) (v : Int) :
    memWrite s a v = .error (.boundsFault (BitVec.ofNat 9 a)) :=
  if_neg (Nat.not_lt.2 h)

/-- The store of PUSH and CALL never faults: its address is a byte. -/
@[simp] theorem storeTop_eq (s : State) (v : Int) :
    storeTop s v = .ok (s.setMem (s.mem.write s.sp.toNat (wrap8 v))) := by
  simp [storeTop, memWrite_ok s (Nat.le_of_lt_succ s.sp.isLt)]

/-! ### Operands -/

theorem regIndex_ok {r : RegOperand} (h : r.toNat < 8) : regIndex r = .ok ⟨r.toNat, h⟩ := dif_pos h

theorem regIndex_error {r : RegOperand} (h : 7 < r.toNat) : regIndex r = .error (.boundsFault (r.setWidth 9)) :=
  dif_neg (Nat.not_lt.2 h)

theorem regIndex_cases (r : RegOperand) :
    (∃ h : r.toNat < 8, regIndex r = .ok ⟨r.toNat, h⟩) ∨
      (7 < r.toNat ∧ regIndex r = .error (.boundsFault (r.setWidth 9))) := by
  by_cases h : r.toNat < 8
  · exact .inl ⟨h, regIndex_ok h⟩
  · exact .inr ⟨by omega, regIndex_error (by omega)⟩

/-- The operand bytes come back when all of them lie in memory. -/
theorem fetchOperands_ok (s : State) (n : Nat) {a : Nat} (h : a + n ≤ 256) :
    fetchOperands s a n = .ok ((List.range' a n).map s.mem.read) := by
  induction n generalizing a with
  | zero => rfl
  | succ n ih =>
    simp [fetchOperands, memRead_ok s (show a ≤ 255 by omega), ih (show a + 1 + n ≤ 256 by omega),
      List.range'_succ]

/-- The first operand address past 255 is the one reported (R33, R74). -/
theorem fetchOperands_error (s : State) (n : Nat) {a : Nat} (ha : a ≤ 256) (h : 256 < a + n) :
    fetchOperands s a n = .error (.boundsFault 256) := by
  induction n generalizing a with
  | zero => omega
  | succ n ih =>
    by_cases hm : a ≤ 255
    · simp [fetchOperands, memRead_ok s hm, ih (show a + 1 ≤ 256 by omega) (by omega)]
    · have : a = 256 := by omega
      subst this
      simp [fetchOperands, memRead_error s (show 255 < 256 by omega)]

end Sys2Proof.Machine
end

