-- ==== Sys2Proof/Laws/Exec.lean ====
section
/-! SUPPORT. What each meaning answers, as an equation per case of its checks, and the one inversion lemma
over all of them. -/

namespace Sys2Proof.Machine

/-! ### HLT, LDI, PRN -/

theorem execHlt_eq (s : State) : execHlt s = .next s.halt := rfl

theorem execLdi_ok {r : RegOperand} (h : r.toNat < 8) (v : Byte) (s : State) :
    execLdi r v s = .next (s.setReg ⟨r.toNat, h⟩ v.toNat) := by
  simp [execLdi, regIndex_ok h]

theorem execLdi_error {r : RegOperand} (h : 7 < r.toNat) (v : Byte) (s : State) :
    execLdi r v s = .next (s.raise (.boundsFault (r.setWidth 9))) := by
  simp [execLdi, regIndex_error h]

theorem execPrn_ok {r : RegOperand} (h : r.toNat < 8) (s : State) :
    execPrn r s = .next (s.output (s.reg ⟨r.toNat, h⟩)) := by
  simp [execPrn, regIndex_ok h]

theorem execPrn_error {r : RegOperand} (h : 7 < r.toNat) (s : State) :
    execPrn r s = .next (s.raise (.boundsFault (r.setWidth 9))) := by
  simp [execPrn, regIndex_error h]

/-! ### The ALU -/

/-- ADD on bytes is the bit vector sum. -/
@[simp] theorem alu_add (p q : Byte) : alu .add p q = .ok (p + q) := by
  simp only [alu]
  rw [← Int.natCast_add, wrap8_natCast]
  exact congrArg Except.ok (BitVec.eq_of_toNat_eq (by simp [BitVec.toNat_add]))

/-- SUB on bytes is the bit vector difference. -/
@[simp] theorem alu_sub (p q : Byte) : alu .sub p q = .ok (p - q) := by
  simp only [alu]
  refine congrArg Except.ok (BitVec.eq_of_toNat_eq ?_)
  have h := wrap8_toInt_mod ((p.toNat : Int) - q.toNat)
  rw [BitVec.toNat_sub]
  omega

/-- MUL on bytes is the bit vector product. -/
@[simp] theorem alu_mul (p q : Byte) : alu .mul p q = .ok (p * q) := by
  simp only [alu]
  rw [← Int.natCast_mul, wrap8_natCast]
  exact congrArg Except.ok (BitVec.eq_of_toNat_eq (by simp [BitVec.toNat_mul]))

theorem aluApply_ok {a b : RegOperand} (ha : a.toNat < 8) (hb : b.toNat < 8) (op : AluOp) (s : State) :
    aluApply op a b s =
      (alu op (s.reg ⟨a.toNat, ha⟩) (s.reg ⟨b.toNat, hb⟩) >>= fun v =>
        .ok (s.setReg ⟨a.toNat, ha⟩ v.toNat)) := by
  simp [aluApply, regIndex_ok ha, regIndex_ok hb]

theorem aluApply_error_a {a : RegOperand} (ha : 7 < a.toNat) (b : RegOperand) (op : AluOp) (s : State) :
    aluApply op a b s = .error (.boundsFault (a.setWidth 9)) := by
  simp [aluApply, regIndex_error ha]

theorem aluApply_error_b {a b : RegOperand} (ha : a.toNat < 8) (hb : 7 < b.toNat) (op : AluOp) (s : State) :
    aluApply op a b s = .error (.boundsFault (b.setWidth 9)) := by
  simp [aluApply, regIndex_ok ha, regIndex_error hb]

theorem execMul_ok {a b : RegOperand} (ha : a.toNat < 8) (hb : b.toNat < 8) (s : State) :
    execMul a b s =
      .next (s.setReg ⟨a.toNat, ha⟩ (s.reg ⟨a.toNat, ha⟩ * s.reg ⟨b.toNat, hb⟩).toNat) := by
  simp [execMul, aluApply_ok ha hb]

theorem execAdd_ok {a b : RegOperand} (ha : a.toNat < 8) (hb : b.toNat < 8) (s : State) :
    execAdd a b s =
      .next (s.setReg ⟨a.toNat, ha⟩ (s.reg ⟨a.toNat, ha⟩ + s.reg ⟨b.toNat, hb⟩).toNat) := by
  simp [execAdd, aluApply_ok ha hb]

/-- Both ALU instructions check `operand_a` first. -/
theorem attempt_aluApply_error_a {a : RegOperand} (ha : 7 < a.toNat) (b : RegOperand) (op : AluOp) (s : State) :
    attempt s (aluApply op a b s) = .next (s.raise (.boundsFault (a.setWidth 9))) := by
  rw [aluApply_error_a ha, attempt_error]

theorem attempt_aluApply_error_b {a b : RegOperand} (ha : a.toNat < 8) (hb : 7 < b.toNat) (op : AluOp)
    (s : State) : attempt s (aluApply op a b s) = .next (s.raise (.boundsFault (b.setWidth 9))) := by
  rw [aluApply_error_b ha hb, attempt_error]

/-! ### The stack and subroutines -/

/-- The state PUSH and CALL leave after their store of `v`: SP decremented, `v` at the new SP. -/
def State.pushed (s : State) (v : Byte) : State :=
  s.decSp.setMem (s.mem.write (s.sp - 1).toNat v)

@[simp] theorem State.pushed_reg (s : State) (v : Byte) (j : Fin 8) :
    (s.pushed v).reg j = if j = 7 then s.sp - 1 else s.reg j := s.decSp_reg j
@[simp] theorem State.pushed_sp (s : State) (v : Byte) : (s.pushed v).sp = s.sp - 1 := s.decSp_sp
@[simp] theorem State.pushed_mem (s : State) (v : Byte) :
    (s.pushed v).mem = s.mem.write (s.sp - 1).toNat v := rfl
@[simp] theorem State.pushed_pc (s : State) (v : Byte) : (s.pushed v).pc = s.pc := rfl
@[simp] theorem State.pushed_halted (s : State) (v : Byte) : (s.pushed v).halted = s.halted := rfl
@[simp] theorem State.pushed_fault (s : State) (v : Byte) : (s.pushed v).fault = s.fault := rfl
@[simp] theorem State.pushed_faultInfo (s : State) (v : Byte) : (s.pushed v).faultInfo = s.faultInfo := rfl
@[simp] theorem State.pushed_out (s : State) (v : Byte) : (s.pushed v).out = s.out := rfl

theorem execPush_ok {r : RegOperand} (h : r.toNat < 8) (s : State) :
    execPush r s = .next (s.pushed (s.decSp.reg ⟨r.toNat, h⟩)) := by
  simp [execPush, regIndex_ok h, State.pushed]

theorem execPush_error {r : RegOperand} (h : 7 < r.toNat) (s : State) :
    execPush r s = .next (s.raise (.boundsFault (r.setWidth 9))) := by
  simp [execPush, regIndex_error h]

theorem execPop_ok {r : RegOperand} (h : r.toNat < 8) {s : State} (hs : s.sp ≠ 0xF4) :
    execPop r s = .next (s.setReg ⟨r.toNat, h⟩ (s.mem.read s.sp.toNat).toNat).incSp := by
  have : s.sp ≠ Config.spReset := hs
  simp [execPop, regIndex_ok h, this]

theorem execPop_underflow {r : RegOperand} (h : r.toNat < 8) {s : State} (hs : s.sp = 0xF4) :
    execPop r s = .next (s.raise (.stackUnderflow 0xF4)) := by
  have : s.sp = Config.spReset := hs
  simp [execPop, regIndex_ok h, this]
  rfl

theorem execPop_error {r : RegOperand} (h : 7 < r.toNat) (s : State) :
    execPop r s = .next (s.raise (.boundsFault (r.setWidth 9))) := by
  simp [execPop, regIndex_error h]

theorem execCall_ok {r : RegOperand} (h : r.toNat < 8) (s : State) :
    execCall r s =
      .next ((s.pushed (BitVec.ofNat 8 (s.pc.toNat + 2))).setPc (zext9 (s.decSp.reg ⟨r.toNat, h⟩))) := by
  have hw : wrap8 ((s.pc.toNat : Int) + 2) = BitVec.ofNat 8 (s.pc.toNat + 2) := by
    exact_mod_cast wrap8_natCast (s.pc.toNat + 2)
  simp [execCall, regIndex_ok h, State.pushed, returnAddr, hw]

theorem execCall_error {r : RegOperand} (h : 7 < r.toNat) (s : State) :
    execCall r s = .next (s.raise (.boundsFault (r.setWidth 9))) := by
  simp [execCall, regIndex_error h]

theorem execRet_eq (s : State) : execRet s = .next (s.incSp.setPc (zext9 (s.mem.read s.sp.toNat))) := by
  simp [execRet]

/-- A byte widened to a `pc` keeps its value. -/
@[simp] theorem zext9_toNat (v : Byte) : (zext9 v).toNat = v.toNat := by
  simp only [zext9, BitVec.toNat_setWidth]
  omega

/-! ### All instructions at once -/

/-- Everything a completed instruction can do to the state: one case per instruction. -/
inductive Completed : Instr → State → State → Prop
  | hlt (s : State) : Completed .hlt s s.halt
  | ldi (s : State) {r : RegOperand} (h : r.toNat < 8) (v : Byte) :
      Completed (.ldi r v) s (s.setReg ⟨r.toNat, h⟩ v.toNat)
  | prn (s : State) {r : RegOperand} (h : r.toNat < 8) : Completed (.prn r) s (s.output (s.reg ⟨r.toNat, h⟩))
  | mul (s : State) {a b : RegOperand} (ha : a.toNat < 8) (hb : b.toNat < 8) :
      Completed (.mul a b) s
        (s.setReg ⟨a.toNat, ha⟩ (s.reg ⟨a.toNat, ha⟩ * s.reg ⟨b.toNat, hb⟩).toNat)
  | add (s : State) {a b : RegOperand} (ha : a.toNat < 8) (hb : b.toNat < 8) :
      Completed (.add a b) s
        (s.setReg ⟨a.toNat, ha⟩ (s.reg ⟨a.toNat, ha⟩ + s.reg ⟨b.toNat, hb⟩).toNat)
  | push (s : State) {r : RegOperand} (h : r.toNat < 8) :
      Completed (.push r) s (s.pushed (s.decSp.reg ⟨r.toNat, h⟩))
  | pop (s : State) {r : RegOperand} (h : r.toNat < 8) (hs : s.sp ≠ 0xF4) :
      Completed (.pop r) s (s.setReg ⟨r.toNat, h⟩ (s.mem.read s.sp.toNat).toNat).incSp
  | call (s : State) {r : RegOperand} (h : r.toNat < 8) :
      Completed (.call r) s
        ((s.pushed (BitVec.ofNat 8 (s.pc.toNat + 2))).setPc (zext9 (s.decSp.reg ⟨r.toNat, h⟩)))
  | ret (s : State) : Completed .ret s (s.incSp.setPc (zext9 (s.mem.read s.sp.toNat)))

/-- The fault an instruction takes in its handler, if it takes one (R140, checks 5 to 7). -/
inductive Trapped : Instr → State → Trap → Prop
  | operandA {i : Instr} {s : State} {r : RegOperand} {rest : List RegOperand} (hi : i.regOperands = r :: rest)
      (h : 7 < r.toNat) : Trapped i s (.boundsFault (r.setWidth 9))
  | operandB {i : Instr} {s : State} {a b : RegOperand} (hi : i.regOperands = [a, b]) (ha : a.toNat < 8)
      (h : 7 < b.toNat) : Trapped i s (.boundsFault (b.setWidth 9))
  | underflow {s : State} {r : RegOperand} (h : r.toNat < 8) (hs : s.sp = 0xF4) :
      Trapped (.pop r) s (.stackUnderflow 0xF4)

/-- An instruction completes, or it takes a fault and changes nothing else. -/
theorem exec_cases (i : Instr) (s : State) :
    (∃ t, exec i s = .next t ∧ Completed i s t) ∨ (∃ e, exec i s = .next (s.raise e) ∧ Trapped i s e) := by
  cases i with
  | hlt => exact .inl ⟨_, execHlt_eq s, .hlt s⟩
  | ret => exact .inl ⟨_, execRet_eq s, .ret s⟩
  | ldi r v =>
    by_cases h : r.toNat < 8
    · exact .inl ⟨_, execLdi_ok h v s, .ldi s h v⟩
    · exact .inr ⟨_, execLdi_error (by omega) v s, .operandA rfl (by omega)⟩
  | prn r =>
    by_cases h : r.toNat < 8
    · exact .inl ⟨_, execPrn_ok h s, .prn s h⟩
    · exact .inr ⟨_, execPrn_error (by omega) s, .operandA rfl (by omega)⟩
  | mul a b =>
    by_cases ha : a.toNat < 8
    · by_cases hb : b.toNat < 8
      · exact .inl ⟨_, execMul_ok ha hb s, .mul s ha hb⟩
      · exact .inr ⟨_, attempt_aluApply_error_b ha (by omega) .mul s, .operandB rfl ha (by omega)⟩
    · exact .inr ⟨_, attempt_aluApply_error_a (by omega) b .mul s, .operandA rfl (by omega)⟩
  | add a b =>
    by_cases ha : a.toNat < 8
    · by_cases hb : b.toNat < 8
      · exact .inl ⟨_, execAdd_ok ha hb s, .add s ha hb⟩
      · exact .inr ⟨_, attempt_aluApply_error_b ha (by omega) .add s, .operandB rfl ha (by omega)⟩
    · exact .inr ⟨_, attempt_aluApply_error_a (by omega) b .add s, .operandA rfl (by omega)⟩
  | push r =>
    by_cases h : r.toNat < 8
    · exact .inl ⟨_, execPush_ok h s, .push s h⟩
    · exact .inr ⟨_, execPush_error (by omega) s, .operandA rfl (by omega)⟩
  | pop r =>
    by_cases h : r.toNat < 8
    · by_cases hs : s.sp = 0xF4
      · exact .inr ⟨_, execPop_underflow h hs, .underflow h hs⟩
      · exact .inl ⟨_, execPop_ok h hs, .pop s h hs⟩
    · exact .inr ⟨_, execPop_error (by omega) s, .operandA rfl (by omega)⟩
  | call r =>
    by_cases h : r.toNat < 8
    · exact .inl ⟨_, execCall_ok h s, .call s h⟩
    · exact .inr ⟨_, execCall_error (by omega) s, .operandA rfl (by omega)⟩

/-- A completed instruction is what its meaning answers. -/
theorem Completed.exec_eq {i : Instr} {s t : State} (h : Completed i s t) : exec i s = .next t := by
  cases h with
  | hlt => exact execHlt_eq s
  | ldi _ h v => exact execLdi_ok h v s
  | prn _ h => exact execPrn_ok h s
  | mul _ ha hb => exact execMul_ok ha hb s
  | add _ ha hb => exact execAdd_ok ha hb s
  | push _ h => exact execPush_ok h s
  | pop _ h hs => exact execPop_ok h hs
  | call _ h => exact execCall_ok h s
  | ret => exact execRet_eq s

/-- A fault of the handler is what its meaning answers. -/
theorem Trapped.exec_eq {i : Instr} {s : State} {e : Trap} (h : Trapped i s e) :
    exec i s = .next (s.raise e) := by
  cases h with
  | operandA hi h =>
    cases i <;> simp only [Instr.regOperands, List.cons.injEq, reduceCtorEq] at hi <;> obtain ⟨rfl, -⟩ := hi
    case ldi v => exact execLdi_error h v s
    case prn => exact execPrn_error h s
    case mul b => exact attempt_aluApply_error_a h b .mul s
    case add b => exact attempt_aluApply_error_a h b .add s
    case push => exact execPush_error h s
    case pop => exact execPop_error h s
    case call => exact execCall_error h s
  | operandB hi ha h =>
    cases i <;> simp only [Instr.regOperands, List.cons.injEq, reduceCtorEq, and_false] at hi <;>
      obtain ⟨rfl, rfl, -⟩ := hi
    case mul => exact attempt_aluApply_error_b ha h .mul s
    case add => exact attempt_aluApply_error_b ha h .add s
  | underflow h hs => exact execPop_underflow h hs

/-- A completed instruction leaves `fault` and `fault_info` as they were. -/
theorem Completed.fault_eq {i : Instr} {s t : State} (h : Completed i s t) :
    t.fault = s.fault ∧ t.faultInfo = s.faultInfo := by
  cases h <;> exact ⟨rfl, rfl⟩

/-- A completed instruction leaves `halted` as it was, but for HLT. -/
theorem Completed.halted_eq {i : Instr} {s t : State} (h : Completed i s t) (hi : i ≠ .hlt) :
    t.halted = s.halted := by
  cases h <;> first | rfl | exact absurd rfl hi

/-- A completed instruction keeps memory in canonical form. -/
theorem Completed.mem_wf {i : Instr} {s t : State} (h : Completed i s t) (hw : s.mem.wf = true) :
    t.mem.wf = true := by
  cases h <;> first | exact hw | exact Memory.wf_write hw (s.sp - 1).isLt _

/-- A completed handler leaves `pc` alone, but for CALL and RET, which leave a byte in it. -/
theorem Completed.pc_eq {i : Instr} {s t : State} (h : Completed i s t) :
    (i.mnemonic ≠ .call ∧ i.mnemonic ≠ .ret ∧ t.pc = s.pc) ∨
      ((i.mnemonic = .call ∨ i.mnemonic = .ret) ∧ t.pc.toNat ≤ 255) := by
  cases h
  case call h => exact .inr ⟨.inl rfl, by simp only [State.setPc_pc, zext9_toNat]; omega⟩
  case ret => exact .inr ⟨.inr rfl, by simp only [State.setPc_pc, zext9_toNat]; omega⟩
  all_goals exact .inl ⟨by simp [Instr.mnemonic], by simp [Instr.mnemonic], rfl⟩

end Sys2Proof.Machine
end

