-- ==== Sys2Proof/Laws/PerInstr.lean ====
section
/-! SUPPORT. Per instruction: what the opcode byte says of the encoding (R50, R51, R55). -/

namespace Sys2Proof.Laws.EncodingShape

/-- Bits 7:6 of the first byte give the number of bytes of the encoding, bit 4 tells CALL and RET from the
rest, and every byte behind the first is an operand. -/
def Statement (i : Instr) : Prop :=
  (encode i).length = opcodeLength (Config.opcodes.opcode i.mnemonic) ∧
    opcodeSetsPc (Config.opcodes.opcode i.mnemonic) = i.mnemonic.setsPc ∧
    (encode i).tail = i.operands

/-- The shape of every encoding. -/
theorem statement_all (i : Instr) : Statement i :=
  ⟨opcodes_valid.length_encode i, opcodes_valid.setsPc _, rfl⟩

theorem hlt : Statement .hlt := statement_all _
theorem ldi (r : RegOperand) (v : Byte) : Statement (.ldi r v) := statement_all _
theorem prn (r : RegOperand) : Statement (.prn r) := statement_all _
theorem mul (a b : RegOperand) : Statement (.mul a b) := statement_all _
theorem add (a b : RegOperand) : Statement (.add a b) := statement_all _
theorem push (r : RegOperand) : Statement (.push r) := statement_all _
theorem pop (r : RegOperand) : Statement (.pop r) := statement_all _
theorem call (r : RegOperand) : Statement (.call r) := statement_all _
theorem ret : Statement .ret := statement_all _

end Sys2Proof.Laws.EncodingShape
end

