-- ==== Sys2Proof/Laws/Step.lean ====
section
/-! SUPPORT. What a step can do: the fetch, the advance, and the inversion of the whole step. -/

namespace Sys2Proof.Machine

/-! ### The bytes at `pc` -/

/-- The bytes `range'` reads are the ones that lie there. -/
theorem map_read_of_codeAt {s : State} {ir : Byte} {ops : List Byte} (h : s.codeAt (ir :: ops)) :
    (List.range' (s.pc.toNat + 1) ops.length).map s.mem.read = ops := by
  apply List.ext_getElem
  · simp
  · intro k h₁ h₂
    have hk := h.2 (k + 1) (by simpa using h₂)
    simp only [List.getElem_map, List.getElem_range', one_mul, List.getElem_cons_succ] at hk ⊢
    rw [← hk]
    congr 1
    omega

theorem read_of_codeAt {s : State} {ir : Byte} {ops : List Byte} (h : s.codeAt (ir :: ops)) :
    s.pc.toNat ≤ 255 ∧ s.mem.read s.pc.toNat = ir := by
  have h₀ := h.2 0 (by simp)
  have h₁ := h.1
  simp only [List.length_cons] at h₁
  exact ⟨by omega, by simpa using h₀⟩

/-- Code in front is code. -/
theorem codeAt_append {s : State} {bs cs : List Byte} (h : s.codeAt (bs ++ cs)) : s.codeAt bs := by
  refine ⟨by have := h.1; simp at this; omega, fun k hk => ?_⟩
  have := h.2 k (by simp; omega)
  rwa [List.getElem_append_left hk] at this

/-- Code behind `bs` is the code at `pc + bs.length`. -/
theorem codeAt_drop {s t : State} {bs cs : List Byte} (h : s.codeAt (bs ++ cs))
    (hpc : t.pc.toNat = s.pc.toNat + bs.length)
    (hm : ∀ k, k < cs.length → t.mem.read (t.pc.toNat + k) = s.mem.read (t.pc.toNat + k)) : t.codeAt cs := by
  refine ⟨by have := h.1; simp at this; omega, fun k hk => ?_⟩
  have := h.2 (bs.length + k) (by simp; omega)
  rw [List.getElem_append_right (by omega)] at this
  simp only [Nat.add_sub_cancel_left] at this
  rw [hm k hk, ← this, hpc, Nat.add_assoc]

/-! ### The fetch -/

/-- The fetch finds the instruction whose bytes lie at `pc`. -/
theorem fetchWith_codeAt {m : OpcodeMap} (hm : m.Valid) {s : State} {i : Instr} (h : s.codeAt (encodeWith m i)) :
    fetchWith m s = .ok (m.opcode i.mnemonic, i) := by
  obtain ⟨hpc, hir⟩ := read_of_codeAt h
  have hn : i.operands.length = opcodeNOps (m.opcode i.mnemonic) := by
    rw [hm.nOps, Instr.length_operands]
  have hfit : s.pc.toNat + 1 + opcodeNOps (m.opcode i.mnemonic) ≤ 256 := by
    have := h.1
    simp only [encodeWith, List.length_cons] at this
    omega
  have hops := map_read_of_codeAt h
  rw [hn] at hops
  simp [fetchWith, memRead_ok s hpc, hir, hm.lookup_opcode, fetchOperands_ok s _ hfit, hops,
    decodeWith_exact (hm.lookup_opcode _) hn (Instr.build_operands i)]

theorem fetchWith_pastTop (m : OpcodeMap) {s : State} (h : 255 < s.pc.toNat) :
    fetchWith m s = .error (.boundsFault s.pc) := by
  simp [fetchWith, memRead_error s h]

theorem fetchWith_unknown {m : OpcodeMap} {s : State} (hpc : s.pc.toNat ≤ 255)
    (h : m.lookup (s.mem.read s.pc.toNat) = none) :
    fetchWith m s = .error (.illegalOpcode (s.mem.read s.pc.toNat)) := by
  simp [fetchWith, memRead_ok s hpc, h]

theorem fetchWith_operandPastTop {m : OpcodeMap} {s : State} {k : Mnemonic} (hpc : s.pc.toNat ≤ 255)
    (hl : m.lookup (s.mem.read s.pc.toNat) = some k)
    (h : 255 < s.pc.toNat + opcodeNOps (s.mem.read s.pc.toNat)) :
    fetchWith m s = .error (.boundsFault 256) := by
  simp [fetchWith, memRead_ok s hpc, hl,
    fetchOperands_error s (opcodeNOps (s.mem.read s.pc.toNat)) (a := s.pc.toNat + 1) (by omega) (by omega)]

/-- The instruction whose bytes lie at `pc`, when the opcode is known and its operands fit. -/
theorem exists_codeAt {m : OpcodeMap} (hm : m.Valid) {s : State} {k : Mnemonic}
    (hl : m.lookup (s.mem.read s.pc.toNat) = some k) (hfit : s.pc.toNat + k.nOps ≤ 255) :
    ∃ i : Instr, i.mnemonic = k ∧ s.codeAt (encodeWith m i) ∧
      i.operands = (List.range' (s.pc.toNat + 1) k.nOps).map s.mem.read := by
  obtain ⟨i, hi⟩ := Instr.build_isSome (k := k)
    (bs := (List.range' (s.pc.toNat + 1) k.nOps).map s.mem.read) (by simp)
  obtain ⟨hk, ho⟩ := Instr.of_build hi
  refine ⟨i, hk, ⟨by simp [encodeWith, hk]; omega, fun n hn => ?_⟩, ho⟩
  rw [hm.lookup_eq_some] at hl
  cases n with
  | zero => simp [encodeWith, hk, hl]
  | succ n =>
    simp only [encodeWith, ho, List.getElem_cons_succ, List.getElem_map, List.getElem_range', one_mul]
    congr 1
    omega

/-- Everything a fetch can answer, in the order of R140. -/
theorem fetchWith_cases {m : OpcodeMap} (hm : m.Valid) (s : State) :
    (255 < s.pc.toNat ∧ fetchWith m s = .error (.boundsFault s.pc)) ∨
    (s.pc.toNat ≤ 255 ∧ m.lookup (s.mem.read s.pc.toNat) = none ∧
      fetchWith m s = .error (.illegalOpcode (s.mem.read s.pc.toNat))) ∨
    (∃ k, s.pc.toNat ≤ 255 ∧ m.lookup (s.mem.read s.pc.toNat) = some k ∧ 255 < s.pc.toNat + k.nOps ∧
      fetchWith m s = .error (.boundsFault 256)) ∨
    (∃ i, s.codeAt (encodeWith m i) ∧ fetchWith m s = .ok (m.opcode i.mnemonic, i)) := by
  by_cases hpc : s.pc.toNat ≤ 255
  · cases hl : m.lookup (s.mem.read s.pc.toNat) with
    | none => exact .inr (.inl ⟨hpc, rfl, fetchWith_unknown hpc hl⟩)
    | some k =>
      have hn : opcodeNOps (s.mem.read s.pc.toNat) = k.nOps := by
        rw [hm.lookup_eq_some.1 hl, hm.nOps]
      by_cases hfit : s.pc.toNat + k.nOps ≤ 255
      · obtain ⟨i, -, hc, -⟩ := exists_codeAt hm hl hfit
        exact .inr (.inr (.inr ⟨i, hc, fetchWith_codeAt hm hc⟩))
      · exact .inr (.inr (.inl ⟨k, hpc, rfl, by omega, fetchWith_operandPastTop hpc hl (by omega)⟩))
  · exact .inl ⟨by omega, fetchWith_pastTop m (by omega)⟩

/-! ### The advance -/

@[simp] theorem advance_regs (ir : Byte) (s : State) : (advance ir s).regs = s.regs := by
  unfold advance; split <;> rfl
@[simp] theorem advance_mem (ir : Byte) (s : State) : (advance ir s).mem = s.mem := by
  unfold advance; split <;> rfl
@[simp] theorem advance_halted (ir : Byte) (s : State) : (advance ir s).halted = s.halted := by
  unfold advance; split <;> rfl
@[simp] theorem advance_fault (ir : Byte) (s : State) : (advance ir s).fault = s.fault := by
  unfold advance; split <;> rfl
@[simp] theorem advance_faultInfo (ir : Byte) (s : State) : (advance ir s).faultInfo = s.faultInfo := by
  unfold advance; split <;> rfl
@[simp] theorem advance_out (ir : Byte) (s : State) : (advance ir s).out = s.out := by
  unfold advance; split <;> rfl
@[simp] theorem advance_reg (ir : Byte) (s : State) (j : Fin 8) : (advance ir s).reg j = s.reg j :=
  State.reg_congr (advance_regs ir s) j
@[simp] theorem advance_sp (ir : Byte) (s : State) : (advance ir s).sp = s.sp := advance_reg ir s 7

/-- A PC-setting opcode is not advanced. -/
theorem advance_setsPc {ir : Byte} (h : opcodeSetsPc ir = true) (s : State) : advance ir s = s := by
  simp [advance, h]

/-- A halted machine is not advanced. -/
theorem advance_of_halted (ir : Byte) {s : State} (h : s.halted = true) : advance ir s = s := by
  simp [advance, h]

/-- A taken fault is not advanced. -/
@[simp] theorem advance_raise (ir : Byte) (s : State) (e : Trap) : advance ir (s.raise e) = s.raise e :=
  advance_of_halted ir rfl

theorem advance_pc {ir : Byte} {s : State} (hp : opcodeSetsPc ir = false) (hh : s.halted = false)
    (hs : s.pc.toNat ≤ 255) : (advance ir s).pc.toNat = s.pc.toNat + opcodeLength ir := by
  have hl : opcodeLength ir ≤ 4 := by
    have := (ir.extractLsb' 6 2).isLt
    simp only [opcodeLength, opcodeNOps]
    omega
  simp only [advance, hp, hh, and_self, if_true, State.setPc_pc, BitVec.toNat_add, BitVec.toNat_ofNat]
  omega

/-! ### The step -/

theorem step_halted {s : State} (h : s.halted = true) : step s = .next s := by
  simp [step, stepWith, h]

theorem stepWith_fetchError {m : OpcodeMap} {s : State} {e : Trap} (hr : s.halted = false)
    (h : fetchWith m s = .error e) : stepWith m s = .next (s.raise e) := by
  simp [stepWith, hr, h]

theorem stepWith_fetchOk {m : OpcodeMap} {s : State} {ir : Byte} {i : Instr} (hr : s.halted = false)
    (h : fetchWith m s = .ok (ir, i)) {t : State} (he : exec i s = .next t) :
    stepWith m s = .next (advance ir t) := by
  simp [stepWith, hr, h, he]

/-- A step that runs an instruction. -/
theorem step_runningAt {s : State} {i : Instr} (h : s.runningAt i) {t : State} (he : exec i s = .next t) :
    step s = .next (advance (Config.opcodes.opcode i.mnemonic) t) :=
  stepWith_fetchOk h.1 (fetchWith_codeAt opcodes_valid h.2) he

theorem pc_of_runningAt {s : State} {i : Instr} (h : s.runningAt i) : s.pc.toNat ≤ 255 :=
  (read_of_codeAt h.2).1

/-- The opcode byte at `pc` is the instruction's own. -/
theorem lookup_of_runningAt {s : State} {i : Instr} (h : s.runningAt i) :
    Config.opcodes.lookup (s.mem.read s.pc.toNat) = some i.mnemonic := by
  rw [(read_of_codeAt h.2).2]
  exact opcodes_valid.lookup_opcode _

/-- The operand bytes lie behind the opcode. -/
theorem operand_of_runningAt {s : State} {i : Instr} (h : s.runningAt i) (k : Nat) (hk : k < i.operands.length) :
    s.mem.read (s.pc.toNat + (k + 1)) = i.operands[k] := by
  have := h.2.2 (k + 1) (by simp only [encode, encodeWith, List.length_cons]; omega)
  simpa [encode, encodeWith] using this

/-- A one-byte instruction is one byte of code. -/
theorem codeAt_single {s : State} {b : Byte} (h : s.pc.toNat ≤ 255) (hb : s.mem.read s.pc.toNat = b) :
    s.codeAt [b] := by
  refine ⟨by simp only [List.length_cons, List.length_nil]; omega, fun k hk => ?_⟩
  have : k = 0 := by simpa using hk
  subst this
  simpa using hb

/-- A fault taken in the handler is the step's fault. -/
theorem step_of_exec_raise {s : State} {i : Instr} {e : Trap} (hr : s.runningAt i)
    (he : exec i s = .next (s.raise e)) : step s = .next (s.raise e) := by
  simpa using step_runningAt hr he

/-- A completed handler that left `pc` and `halted` alone is advanced over its bytes. -/
theorem step_of_exec_advanced {s t : State} {i : Instr} (hr : s.runningAt i) (he : exec i s = .next t)
    (hk : i.mnemonic.setsPc = false) (ht : t.halted = s.halted) (hpc : t.pc = s.pc) :
    ∃ u, step s = .next u ∧ u.regs = t.regs ∧ u.mem = t.mem ∧ u.out = t.out ∧ SameRunState t u ∧
      u.pc.toNat = s.pc.toNat + 1 + i.mnemonic.nOps := by
  refine ⟨_, step_runningAt hr he, by simp, by simp, by simp, ⟨by simp, by simp, by simp⟩, ?_⟩
  rw [advance_pc (by rw [opcodes_valid.setsPc, hk]) (by rw [ht, hr.1]) (by rw [hpc]; exact pc_of_runningAt hr),
    hpc, opcodeLength, opcodes_valid.nOps]
  omega

/-- CALL and RET leave the step the `pc` they wrote. -/
theorem step_of_exec_setsPc {s t : State} {i : Instr} (hr : s.runningAt i) (he : exec i s = .next t)
    (hk : i.mnemonic.setsPc = true) : step s = .next t := by
  rw [step_runningAt hr he, advance_setsPc (by rw [opcodes_valid.setsPc, hk])]

/-- A known opcode whose operand bytes do not fit below 256. -/
theorem step_operandPastTop {s : State} {k : Mnemonic} (hh : s.halted = false) (hp : s.pc.toNat ≤ 255)
    (hb : s.mem.read s.pc.toNat = Config.opcodes.opcode k) (hf : 255 < s.pc.toNat + k.nOps) :
    step s = .next (s.raise (.boundsFault 256)) := by
  refine stepWith_fetchError hh (fetchWith_operandPastTop hp (k := k) ?_ ?_)
  · rw [hb]; exact opcodes_valid.lookup_opcode k
  · rw [hb, opcodes_valid.nOps]; exact hf

/-- Everything a step can do. -/
theorem step_cases (s : State) :
    (s.halted = true ∧ step s = .next s) ∨
    (s.halted = false ∧ 255 < s.pc.toNat ∧ step s = .next (s.raise (.boundsFault s.pc))) ∨
    (s.halted = false ∧ s.pc.toNat ≤ 255 ∧ Config.opcodes.lookup (s.mem.read s.pc.toNat) = none ∧
      step s = .next (s.raise (.illegalOpcode (s.mem.read s.pc.toNat)))) ∨
    (∃ k, s.halted = false ∧ s.pc.toNat ≤ 255 ∧ Config.opcodes.lookup (s.mem.read s.pc.toNat) = some k ∧
      255 < s.pc.toNat + k.nOps ∧ step s = .next (s.raise (.boundsFault 256))) ∨
    (∃ i e, s.runningAt i ∧ Trapped i s e ∧ step s = .next (s.raise e)) ∨
    (∃ i t, s.runningAt i ∧ Completed i s t ∧
      step s = .next (advance (Config.opcodes.opcode i.mnemonic) t)) := by
  cases hh : s.halted with
  | true => exact .inl ⟨rfl, step_halted hh⟩
  | false =>
    rcases fetchWith_cases opcodes_valid s with ⟨h, hf⟩ | ⟨h, hl, hf⟩ | ⟨k, h, hl, hk, hf⟩ | ⟨i, hc, -⟩
    · exact .inr (.inl ⟨rfl, h, stepWith_fetchError hh hf⟩)
    · exact .inr (.inr (.inl ⟨rfl, h, hl, stepWith_fetchError hh hf⟩))
    · exact .inr (.inr (.inr (.inl ⟨k, rfl, h, hl, hk, stepWith_fetchError hh hf⟩)))
    · rcases exec_cases i s with ⟨t, he, hcmp⟩ | ⟨e, he, htr⟩
      · exact .inr (.inr (.inr (.inr (.inr ⟨i, t, ⟨hh, hc⟩, hcmp, step_runningAt ⟨hh, hc⟩ he⟩))))
      · exact .inr (.inr (.inr (.inr (.inl ⟨i, e, ⟨hh, hc⟩, htr, by
          simpa using step_runningAt ⟨hh, hc⟩ he⟩))))

end Sys2Proof.Machine
end

