-- ==== Sys2Proof/Tests/Slice0.lean ====
section
/-! SUPPORT. The model's own tests. Expected results come from spec/95_test_vectors.md (the vector is named) or,
where none is named, by hand from the rule named; witnesses show that the hypotheses of every statement can
be met, clause by clause at the edges of their ranges. -/

namespace Sys2Proof.Tests

open Sys2Proof.Machine

/-- The reset state with bytes `bs` from address `a` on and `pc` at `a`. -/
def stateAt (a : Nat) (bs : List Byte) : State :=
  { State.reset with pc := BitVec.ofNat 9 a, mem := State.reset.mem.writeList a bs }

/-- The same with register `i` holding `v`. -/
def stateWith (a : Nat) (bs : List Byte) (i : Fin 8) (v : Byte) : State := (stateAt a bs).setReg i v.toNat

/-- One more byte of memory. -/
def poke (s : State) (a : Nat) (v : Byte) : State := s.setMem (s.mem.write a v)

/-- What holds of the state after one step. -/
def after (s : State) (p : State → Bool) : Bool :=
  match step s with
  | .next t => p t
  | .fault _ => false
  | .refused _ => false

/-! ### WellFormed: an ill-formed term for each check -/

theorem test_wellFormed_ok : (Instr.mul 7 0).wellFormed = true := by decide
theorem test_wellFormed_ldi : (Instr.ldi 8 0).wellFormed = false := by decide
theorem test_wellFormed_prn : (Instr.prn 255).wellFormed = false := by decide
theorem test_wellFormed_mul_a : (Instr.mul 8 0).wellFormed = false := by decide
theorem test_wellFormed_add_b : (Instr.add 0 8).wellFormed = false := by decide
theorem test_wellFormed_push : (Instr.push 8).wellFormed = false := by decide
theorem test_wellFormed_pop : (Instr.pop 9).wellFormed = false := by decide
theorem test_wellFormed_call : (Instr.call 8).wellFormed = false := by decide

/-! ### Decoding: words from the table of R55, bit by bit -/

theorem test_decode_hlt : decode [0b00000001, 0xFF] = .ok (.hlt, [0xFF]) := by decide
theorem test_decode_ldi : decode [0b10000010, 0b00000111, 0b00100000] = .ok (.ldi 7 0x20, []) := by decide
theorem test_decode_prn : decode [0b01000111, 0b00000010] = .ok (.prn 2, []) := by decide
theorem test_decode_mul : decode [0b10100010, 0b00000001, 0b00000000] = .ok (.mul 1 0, []) := by decide
theorem test_decode_add : decode [0b10100000, 0b00000111, 0b00001001] = .ok (.add 7 9, []) := by decide
theorem test_decode_push : decode [0b01000101, 0b00000111] = .ok (.push 7, []) := by decide
theorem test_decode_pop : decode [0b01000110, 0b00001001] = .ok (.pop 9, []) := by decide
theorem test_decode_call : decode [0b01010000, 0b00000001] = .ok (.call 1, []) := by decide
theorem test_decode_ret : decode [0b00010001] = .ok (.ret, []) := by decide
/-- L9: the byte another machine uses for SUB. -/
theorem test_decode_unknown : decode [0xA1, 0, 1] = .error (.unknownOpcode 0xA1) := by decide
theorem test_decode_missing : decode [0x82, 0] = .error (.missingOperand 0x82) := by decide
theorem test_decodeTableWord : decodeTableWord 8 0x82 = some (.ldi 0 0) := by decide
theorem test_decodeTableWord_operands : decodeTableWord 24 0x0502A2 = some (.mul 2 5) := by decide
theorem test_withFetchWord : after (State.reset.withFetchWord 24 0x050082) (fun t => t.reg 0 == 5 && t.pc == 3) = true := by decide

/-! ### The nine instructions, one step each -/

/-- L3. -/
theorem test_hlt_at_255 : after (stateAt 255 [0x01]) (fun t => t.halted && t.fault == .none && t.pc == 255) = true := by decide
/-- D3v. -/
theorem test_ldi_r7 : after (stateAt 0 [0x82, 7, 0x20]) (fun t => t.sp == 0x20 && t.pc == 3) = true := by decide
/-- D4v. -/
theorem test_ldi_r8 : after (stateAt 0 [0x82, 8, 5]) (fun t => t.fault == .boundsFault && t.faultInfo == 8 && t.pc == 0) = true := by decide
/-- L4. -/
theorem test_prn_at_254 : after (stateAt 254 [0x47, 0]) (fun t => t.out == [0] && t.pc == 256 && !t.halted) = true := by decide
/-- D7v. -/
theorem test_prn_255 : after (stateWith 0 [0x47, 0] 0 0xFF) (fun t => t.out == [255] && t.pc == 2) = true := by decide
/-- A8v. -/
theorem test_mul_wraps : after ((stateWith 0 [0xA2, 0, 1] 0 0xFF).setReg 1 255) (fun t => t.reg 0 == 1 && t.reg 1 == 0xFF) = true := by decide
/-- A6v with the operands the other way round (S5): the destination is the left operand. -/
theorem test_mul_destination : after ((stateWith 0 [0xA2, 1, 0] 0 2).setReg 1 3) (fun t => t.reg 1 == 6 && t.reg 0 == 2) = true := by decide
/-- A3v. -/
theorem test_add_r7_wraps : after (stateWith 0 [0xA0, 7, 0] 0 0x0C) (fun t => t.sp == 0 && t.pc == 3) = true := by decide
/-- A5v. -/
theorem test_add_both_bad : after (stateAt 0 [0xA0, 0x0A, 9]) (fun t => t.fault == .boundsFault && t.faultInfo == 10) = true := by decide
/-- K2. -/
theorem test_push_r7 : after (stateAt 0 [0x45, 7]) (fun t => t.sp == 0xF3 && t.mem.read 0xF3 == 0xF3) = true := by decide
/-- K3. -/
theorem test_push_wraps : after ((stateWith 0 [0x45, 0] 0 0xAB).setReg 7 0) (fun t => t.sp == 0xFF && t.mem.read 0xFF == 0xAB) = true := by decide
/-- K9a. -/
theorem test_pop_r7 : after (poke (stateWith 0 [0x46, 7] 7 0xF3) 0xF3 0x10) (fun t => t.sp == 0x11 && t.pc == 2) = true := by decide
/-- K7. -/
theorem test_pop_empty : after (stateAt 0 [0x46, 0]) (fun t => t.fault == .stackUnderflow && t.faultInfo == 0xF4 && t.sp == 0xF4) = true := by decide
/-- K9. -/
theorem test_call_at_254 : after (poke (stateWith 254 [0x50, 0] 0 0x30) 0xF3 0x99) (fun t => t.mem.read 0xF3 == 0 && t.pc == 0x30) = true := by decide
/-- C3v. -/
theorem test_call_latched : after (((stateWith 3 [0x50, 1] 1 0x20).setReg 5 0x77).setReg 7 5) (fun t => t.mem.read 4 == 5 && t.pc == 0x20) = true := by decide
/-- C7v. -/
theorem test_ret_empty : after (poke (stateAt 0 [0x11]) 0xF4 0x42) (fun t => t.pc == 0x42 && t.sp == 0xF5 && !t.halted) = true := by decide
/-- C9v. -/
theorem test_ret_wraps : after (poke (stateWith 0 [0x11] 7 0xFF) 0xFF 7) (fun t => t.pc == 7 && t.sp == 0) = true := by decide

/-! ### The loop -/

/-- L5. -/
theorem test_fetch_256 : after (stateAt 256 []) (fun t => t.fault == .boundsFault && t.faultInfo == 256 && t.pc == 256) = true := by decide
/-- L8. -/
theorem test_unknown_at_255 : after (stateAt 255 [0xFF]) (fun t => t.fault == .illegalOpcode && t.faultInfo == 0xFF && t.pc == 255) = true := by decide

/-! ### The ALU and the host interface -/

/-- Row 0, 77 of the ALU table. -/
theorem test_alu_sub : alu .sub 0 77 = .ok 179 := by decide
/-- Row 200, 100 of the ALU table. -/
theorem test_alu_mul : alu .mul 200 100 = .ok 32 := by decide
/-- S1. -/
theorem test_wrap8 : wrap8 256 = 0 ∧ wrap8 257 = 1 ∧ wrap8 (-1) = 255 := by decide
/-- R163: the image from address 0, the rest of memory zero. -/
theorem test_load : (match startState [0x82, 0, 5] with
    | .next s => s.mem.read 2 == 5 && s.mem.read 3 == 0 && s.sp == 0xF4 && s.mem.wf
    | .fault _ => false
    | .refused _ => false) = true := by decide
/-- R166: no load once the first step has begun. -/
theorem test_no_load_after_step : Session.fresh.transactAll [.load [0x01], .step, .load [0x01]] = none := by decide
/-- R150: the trace at 254; the third byte's address does not exist. -/
theorem test_trace : (traceOf (stateAt 254 [0x47, 3])).bytes = [some 0x47, some 3, none] := by decide

/-- R60: operands in the order of the bytes, decimal immediates. -/
theorem test_assembly : (Instr.ldi 0 5).assembly = "LDI R0,5" ∧ (Instr.mul 0 1).assembly = "MUL R0,R1" := by decide
/-- D7v and R20: 255 prints as `255`, 0 as `0`. -/
theorem test_outputLines : outputLines { State.reset with out := [255, 0] } = ["255", "0"] := by decide

/-! ### Witnesses

The statements that are not named here have no hypotheses. -/

theorem witness_DecodeEncodeRoundTrip : Config.opcodes.Valid := by decide

theorem witness_EncodeDecodeRoundTrip :
    decodeWith Config.opcodes [0xA2, 255, 0, 7] = .ok (.mul 255 0, [7]) ∧
    decodeWith Config.opcodes [0x01] = .ok (.hlt, []) := by decide

theorem witness_DecodeProcedure :
    Config.opcodes.Valid ∧
    (Config.opcodes.opcode .mul = 0xA2 ∧ opcodeLength 0xA2 ≤ [0xA2, (1 : Byte), 2].length) ∧
    (Config.opcodes.opcode .ret = 0x11 ∧ opcodeLength 0x11 ≤ [(0x11 : Byte)].length) ∧
    (∀ k ∈ Mnemonic.all, Config.opcodes.opcode k ≠ 0xC0) := by decide

theorem witness_ResetState : (6 : Fin 8) ≠ 7 ∧ 255 ≤ 255 := by decide

/-- The empty image, one that fills memory, and one byte more. -/
theorem witness_LoadGivesStartState :
    ([] : List Byte).length ≤ 256 ∧ (∃ image : List Byte, image.length ≤ 256 ∧ 255 < image.length) ∧
    (∃ image : List Byte, 256 < image.length) :=
  ⟨by decide,
    ⟨List.replicate 256 1, Nat.le_of_eq List.length_replicate, Nat.lt_of_lt_of_eq (by decide) List.length_replicate.symm⟩,
    ⟨List.replicate 257 1, Nat.lt_of_lt_of_eq (by decide) List.length_replicate.symm⟩⟩

/-- `pc` at its largest reachable value, and a state a fault has stopped. -/
theorem witness_StepKeepsInvariant :
    (∃ t, (stateAt 254 [0x47, 0]).Inv ∧ step (stateAt 254 [0x47, 0]) = .next t) ∧
    (∃ t, (stateAt 258 []).Inv ∧ step (stateAt 258 []) = .next t) ∧
    (∃ t, ((stateAt 0 [0xC0]).raise (.illegalOpcode 0xC0)).Inv ∧
      step ((stateAt 0 [0xC0]).raise (.illegalOpcode 0xC0)) = .next t) :=
  ⟨⟨_, by decide, rfl⟩, ⟨_, by decide, rfl⟩, ⟨_, by decide, rfl⟩⟩

theorem witness_SessionsMeetInvariant :
    (Session.fresh.transactAll [.load [0x82, 0, 5, 0x01], .step, .run 3, .step, .reset]).isSome = true := by
  decide

theorem witness_MemReadChecked : 255 ≤ 255 ∧ 255 < 256 ∧ 256 < 512 ∧ 255 < 511 ∧ 511 < 512 := by decide

/-- A write at the last cell, one past it, a step of PUSH and of CALL that change the cell, and a load. -/
theorem witness_MemWriteAndItsWriters :
    (State.reset.mem.wf = true ∧ 255 ≤ 255) ∧ (255 < 256 ∧ 256 < 512) ∧
    ((stateWith 0 [0x45, 0] 0 9).mem.wf = true ∧
      after (stateWith 0 [0x45, 0] 0 9) (fun t => t.mem.read 0xF3 != (stateWith 0 [0x45, 0] 0 9).mem.read 0xF3) = true) ∧
    ((stateAt 0 [0x50, 0]).mem.wf = true ∧
      after (stateAt 0 [0x50, 0]) (fun t => t.mem.read 0xF3 != (stateAt 0 [0x50, 0]).mem.read 0xF3) = true) ∧
    (match load [0x01] State.reset with
      | .next t => t.mem.read 0 != State.reset.mem.read 0
      | .fault _ => false
      | .refused _ => false) = true := by decide

theorem witness_RegisterWriteWraps : (7 : Byte).toNat < 8 ∧ 7 < (8 : Byte).toNat ∧ 7 < (255 : Byte).toNat := by decide

theorem witness_AluApply :
    7 < (8 : Byte).toNat ∧ ((7 : Byte).toNat ≤ 7 ∧ 7 < (8 : Byte).toNat) ∧
    ((0 : Byte).toNat < 8 ∧ (7 : Byte).toNat < 8 ∧ alu .sub (State.reset.reg 0) (State.reset.reg 7) = .ok 12) ∧
    alu .other (State.reset.reg 0) (State.reset.reg 7) = .error .unsupportedOperation := by decide

theorem witness_UnsupportedSelectorFaults :
    (7 : Byte).toNat ≤ 7 ∧
    after (stateAt 0 [0xFF]) (fun t => t.fault != .unsupportedAluOp) = true ∧
    (stateAt 0 [0xFF]).fault ≠ .unsupportedAluOp := by decide

theorem witness_LdiCompletes : (7 : Byte).toNat < 8 ∧ (0 : Byte).toNat < 8 := by decide
theorem witness_PrnCompletes : (7 : Byte).toNat < 8 ∧ (0 : Byte).toNat < 8 := by decide
theorem witness_AluInstructionsComplete : (7 : Byte).toNat < 8 ∧ (0 : Byte).toNat < 8 := by decide

/-- SP at 0, where the decrement wraps, with R7 and with another register. -/
theorem witness_PushCompletes :
    (7 : Byte).toNat < 8 ∧ (0 : Byte).toNat < 8 ∧ (stateWith 0 [0x45, 7] 7 0).mem.wf = true := by decide

theorem witness_PopCompletes :
    ((7 : Byte).toNat < 8 ∧ (7 : Byte).toNat = 7 ∧ (stateWith 0 [] 7 0xFF).sp ≠ 0xF4) ∧
    ((6 : Byte).toNat < 8 ∧ (6 : Byte).toNat ≠ 7 ∧ (stateWith 0 [] 7 0xF5).sp ≠ 0xF4) ∧
    ((7 : Byte).toNat < 8 ∧ State.reset.sp = 0xF4) := by decide

theorem witness_CallCompletes :
    (7 : Byte).toNat < 8 ∧ (0 : Byte).toNat < 8 ∧ (stateWith 254 [0x50, 7] 7 0).mem.wf = true := by decide

theorem witness_BadRegisterOperandFaults : 7 < (8 : Byte).toNat ∧ (7 : Byte).toNat ≤ 7 := by decide

theorem witness_StepRunsDecodedInstruction :
    (stateAt 253 [0x82, 8, 255]).runningAt (.ldi 8 255) ∧ (stateAt 255 [0x11]).runningAt .ret ∧
    Config.opcodes.Valid ∧ (stateAt 0 [0xA0, 1, 2]).codeAt (encodeWith Config.opcodes (.add 1 2)) := by decide

/-- A completed plain instruction, HLT, a PC-setting instruction, and a step that faults. -/
theorem witness_AdvanceRule :
    (∃ t, (stateAt 254 [0x47, 0]).runningAt (.prn 0) ∧ exec (.prn 0) (stateAt 254 [0x47, 0]) = .next t ∧
      t.halted = false ∧ opcodeSetsPc (Config.opcodes.opcode .prn) = false) ∧
    (∃ t, (stateAt 255 [0x01]).runningAt .hlt ∧ exec .hlt (stateAt 255 [0x01]) = .next t ∧ t.halted = true) ∧
    ((stateAt 255 [0x11]).runningAt .ret ∧ opcodeSetsPc (Config.opcodes.opcode .ret) = true) ∧
    (∃ t, (stateAt 255 [0xC0]).halted = false ∧ (stateAt 255 [0xC0]).fault = .none ∧
      step (stateAt 255 [0xC0]) = .next t ∧ t.fault ≠ .none) :=
  ⟨⟨_, by decide, rfl, by decide, by decide⟩, ⟨_, by decide, rfl, by decide⟩, by decide,
    ⟨_, by decide, by decide, rfl, by decide⟩⟩

theorem witness_HaltedIsTerminal :
    State.reset.halt.halted = true ∧
    (({ phase := .started, core := State.reset.halt } : Session).transact .step).isSome = true ∧
    (({ phase := .started, core := State.reset.halt } : Session).transact .reset).isSome = true := by decide

theorem witness_StepHlt :
    ((stateAt 255 [0x01]).halted = false ∧ (stateAt 255 [0x01]).pc.toNat ≤ 255 ∧
      (stateAt 255 [0x01]).mem.read 255 = Config.opcodes.hlt) ∧
    ((stateAt 256 []).halted = false ∧ 255 < (stateAt 256 []).pc.toNat) := by decide

theorem witness_StepLdi :
    ((stateAt 253 [0x82, 7, 255]).runningAt (.ldi 7 255) ∧ (7 : Byte).toNat < 8) ∧
    ((stateAt 253 [0x82, 8, 255]).runningAt (.ldi 8 255) ∧ 7 < (8 : Byte).toNat) ∧
    ((stateAt 254 [0x82, 0]).halted = false ∧ (stateAt 254 [0x82, 0]).mem.read 254 = Config.opcodes.ldi) ∧
    ((stateAt 255 [0x82]).halted = false ∧ (stateAt 255 [0x82]).mem.read 255 = Config.opcodes.ldi) := by decide

theorem witness_StepPrn :
    ((stateAt 254 [0x47, 7]).runningAt (.prn 7) ∧ (7 : Byte).toNat < 8) ∧
    ((stateAt 254 [0x47, 8]).runningAt (.prn 8) ∧ 7 < (8 : Byte).toNat) ∧
    ((stateAt 255 [0x47]).halted = false ∧ (stateAt 255 [0x47]).mem.read 255 = Config.opcodes.prn) := by decide

theorem witness_StepMul :
    ((stateAt 253 [0xA2, 7, 7]).runningAt (.mul 7 7) ∧ (7 : Byte).toNat < 8) ∧
    ((stateAt 253 [0xA2, 8, 8]).runningAt (.mul 8 8) ∧ 7 < (8 : Byte).toNat) ∧
    ((stateAt 253 [0xA2, 7, 8]).runningAt (.mul 7 8) ∧ (7 : Byte).toNat ≤ 7 ∧ 7 < (8 : Byte).toNat) ∧
    ((stateAt 254 [0xA2, 0]).halted = false ∧ (stateAt 254 [0xA2, 0]).mem.read 254 = Config.opcodes.mul) ∧
    ((stateAt 255 [0xA2]).halted = false ∧ (stateAt 255 [0xA2]).mem.read 255 = Config.opcodes.mul) := by decide

theorem witness_StepAdd :
    ((stateAt 253 [0xA0, 7, 7]).runningAt (.add 7 7) ∧ (7 : Byte).toNat < 8) ∧
    ((stateAt 253 [0xA0, 8, 8]).runningAt (.add 8 8) ∧ 7 < (8 : Byte).toNat) ∧
    ((stateAt 253 [0xA0, 7, 8]).runningAt (.add 7 8) ∧ (7 : Byte).toNat ≤ 7 ∧ 7 < (8 : Byte).toNat) ∧
    ((stateAt 254 [0xA0, 0]).halted = false ∧ (stateAt 254 [0xA0, 0]).mem.read 254 = Config.opcodes.add) ∧
    ((stateAt 255 [0xA0]).halted = false ∧ (stateAt 255 [0xA0]).mem.read 255 = Config.opcodes.add) := by decide

/-- SP at 0; SP at 2, so that the store hits the PUSH's own operand (K5); a bad index; the top of memory. -/
theorem witness_StepPush :
    ((stateWith 254 [0x45, 7] 7 0).mem.wf = true ∧ (stateWith 254 [0x45, 7] 7 0).runningAt (.push 7)) ∧
    ((stateWith 0 [0x45, 0] 7 2).mem.wf = true ∧ (stateWith 0 [0x45, 0] 7 2).runningAt (.push 0) ∧
      pushAddr (stateWith 0 [0x45, 0] 7 2) = 1) ∧
    ((stateAt 0 [0x45, 8]).mem.wf = true ∧ (stateAt 0 [0x45, 8]).runningAt (.push 8) ∧ 7 < (8 : Byte).toNat) ∧
    ((stateAt 255 [0x45]).halted = false ∧ (stateAt 255 [0x45]).mem.read 255 = Config.opcodes.push) := by decide

theorem witness_StepPop :
    ((stateWith 254 [0x46, 7] 7 0xFF).runningAt (.pop 7) ∧ (stateWith 254 [0x46, 7] 7 0xFF).sp ≠ 0xF4) ∧
    ((stateWith 0 [0x46, 6] 7 0xF5).runningAt (.pop 6) ∧ (stateWith 0 [0x46, 6] 7 0xF5).sp ≠ 0xF4) ∧
    ((stateAt 0 [0x46, 7]).runningAt (.pop 7) ∧ (7 : Byte).toNat ≤ 7 ∧ (stateAt 0 [0x46, 7]).sp = 0xF4) ∧
    ((stateAt 0 [0x46, 8]).runningAt (.pop 8) ∧ 7 < (8 : Byte).toNat) ∧
    ((stateAt 255 [0x46]).halted = false ∧ (stateAt 255 [0x46]).mem.read 255 = Config.opcodes.pop) := by decide

/-- CALL at 254 with SP at 0; a push onto its own operand (C3v); a bad index; the top of memory. -/
theorem witness_StepCall :
    ((stateWith 254 [0x50, 7] 7 0).mem.wf = true ∧ (stateWith 254 [0x50, 7] 7 0).runningAt (.call 7)) ∧
    ((stateWith 3 [0x50, 1] 7 5).mem.wf = true ∧ (stateWith 3 [0x50, 1] 7 5).runningAt (.call 1) ∧
      pushAddr (stateWith 3 [0x50, 1] 7 5) = 4) ∧
    ((stateAt 0 [0x50, 8]).mem.wf = true ∧ (stateAt 0 [0x50, 8]).runningAt (.call 8) ∧ 7 < (8 : Byte).toNat) ∧
    ((stateAt 255 [0x50]).halted = false ∧ (stateAt 255 [0x50]).mem.read 255 = Config.opcodes.call) := by decide

theorem witness_StepRet :
    (stateAt 255 [0x11]).halted = false ∧ (stateAt 255 [0x11]).pc.toNat ≤ 255 ∧
    (stateAt 255 [0x11]).mem.read 255 = Config.opcodes.ret := by decide

theorem witness_LdiThenPrn :
    (7 : Byte).toNat < 8 ∧ (stateAt 251 [0x82, 7, 255, 0x47, 7]).halted = false ∧
    (stateAt 251 [0x82, 7, 255, 0x47, 7]).codeAt (encode (.ldi 7 255) ++ encode (.prn 7)) := by decide

/-- The round trip from the reset SP, and the push from 0xF5 that lands on the sentinel (K12). -/
theorem witness_PushThenPop :
    ((0 : Byte).toNat < 7 ∧ (6 : Byte).toNat < 7 ∧ (stateAt 252 [0x45, 0, 0x46, 6]).mem.wf = true ∧
      (stateAt 252 [0x45, 0, 0x46, 6]).halted = false ∧
      (stateAt 252 [0x45, 0, 0x46, 6]).codeAt (encode (.push 0) ++ encode (.pop 6)) ∧
      (∀ k, k < 4 → pushAddr (stateAt 252 [0x45, 0, 0x46, 6]) ≠ (stateAt 252 [0x45, 0, 0x46, 6]).pc.toNat + k) ∧
      (stateAt 252 [0x45, 0, 0x46, 6]).sp ≠ 0xF5) ∧
    ((stateWith 0 [0x45, 0, 0x46, 1] 7 0xF5).mem.wf = true ∧
      (stateWith 0 [0x45, 0, 0x46, 1] 7 0xF5).halted = false ∧
      (stateWith 0 [0x45, 0, 0x46, 1] 7 0xF5).codeAt (encode (.push 0) ++ encode (.pop 1)) ∧
      (∀ k, k < 4 → pushAddr (stateWith 0 [0x45, 0, 0x46, 1] 7 0xF5) ≠
        (stateWith 0 [0x45, 0, 0x46, 1] 7 0xF5).pc.toNat + k) ∧
      (stateWith 0 [0x45, 0, 0x46, 1] 7 0xF5).sp = 0xF5) := by decide

/-- CALL at 253 and at 254, and a RET in the state it leaves (C1v, K9). -/
theorem witness_CallThenRet :
    ((0 : Byte).toNat < 8 ∧ (stateWith 253 [0x50, 0] 0 8).mem.wf = true ∧
      (stateWith 253 [0x50, 0] 0 8).runningAt (.call 0) ∧
      after (poke (stateWith 253 [0x50, 0] 0 8) 8 0x11) (fun u => decide (u.runningAt .ret)) = true) ∧
    ((stateWith 254 [0x50, 0] 0 8).runningAt (.call 0) ∧
      after (poke (stateWith 254 [0x50, 0] 0 8) 8 0x11) (fun u => decide (u.runningAt .ret)) = true) := by decide

/-- A PUSH of the HLT byte, and of 0x00, which is no opcode, into the cell behind it (P7). -/
theorem witness_NextFetchSeesStore :
    ((0 : Byte).toNat < 7 ∧ ((stateWith 6 [0x45, 0] 7 9).setReg 0 1).mem.wf = true ∧
      ((stateWith 6 [0x45, 0] 7 9).setReg 0 1).runningAt (.push 0) ∧
      pushAddr ((stateWith 6 [0x45, 0] 7 9).setReg 0 1) = 6 + 2 ∧
      ((stateWith 6 [0x45, 0] 7 9).setReg 0 1).reg 0 = Config.opcodes.hlt) ∧
    ((stateWith 6 [0x45, 0] 7 9).runningAt (.push 0) ∧ pushAddr (stateWith 6 [0x45, 0] 7 9) = 6 + 2 ∧
      ∀ k ∈ Mnemonic.all, Config.opcodes.opcode k ≠ (stateWith 6 [0x45, 0] 7 9).reg 0) := by decide

theorem witness_FaultsArePrecise :
    ∃ t, (stateAt 0 [0x46, 0]).fault = .none ∧ step (stateAt 0 [0x46, 0]) = .next t ∧ t.fault ≠ .none :=
  ⟨_, by decide, rfl, by decide⟩

/-- A state for each check of R140, and one in which none fails. -/
theorem witness_FaultPriority :
    firstFailedCheck (stateAt 256 []) = some (.boundsFault 256) ∧
    firstFailedCheck (stateAt 255 [0xFF]) = some (.illegalOpcode 0xFF) ∧
    firstFailedCheck (stateAt 255 [0x46]) = some (.boundsFault 256) ∧
    firstFailedCheck (stateAt 254 [0x82, 8]) = some (.boundsFault 256) ∧
    firstFailedCheck (stateAt 0 [0x46, 8]) = some (.boundsFault 8) ∧
    firstFailedCheck (stateAt 0 [0xA2, 7, 8]) = some (.boundsFault 8) ∧
    firstFailedCheck (stateAt 0 [0x46, 7]) = some (.stackUnderflow 0xF4) ∧
    firstFailedCheck (stateAt 255 [0x11]) = none ∧ (stateAt 255 [0x11]).halted = false := by decide

/-- A step to each kind of stop, and one that runs on. -/
theorem witness_StopKinds :
    after (stateAt 255 [0x01]) (fun t => t.stopKind == some .normalHalt) = true ∧
    after (stateAt 255 [0xC0]) (fun t => t.stopKind == some .unknownOpcode) = true ∧
    after (stateAt 0 [0x46, 0]) (fun t => t.stopKind == some .faultStop) = true ∧
    after (stateAt 255 [0x11]) (fun t => t.stopKind == none) = true ∧
    (stateAt 255 [0x01]).halted = false ∧ (stateAt 255 [0x01]).fault = .none := by decide

theorem witness_PcTable :
    (∃ t, (stateAt 255 [0xC0]).halted = false ∧ (stateAt 255 [0xC0]).fault = .none ∧
      step (stateAt 255 [0xC0]) = .next t ∧ t.fault ≠ .none) ∧
    (∃ t, step (stateAt 254 [0x50, 7]) = .next t ∧ t.fault = .none ∧
      (stateAt 254 [0x50, 7]).runningAt (.call 7)) ∧
    (∃ t, step (stateAt 253 [0xA0, 7, 7]) = .next t ∧ t.fault = .none ∧
      (stateAt 253 [0xA0, 7, 7]).runningAt (.add 7 7)) :=
  ⟨⟨_, by decide, by decide, rfl, by decide⟩, ⟨_, rfl, by decide, by decide⟩, ⟨_, rfl, by decide, by decide⟩⟩

/-- Register files that agree on SP and R1 and differ elsewhere, for `PUSH R1`. -/
theorem witness_RegistersReadAndWritten :
    ∀ j ∈ readRegs (.push 1),
      ({ State.reset with regs := #v[1, 0, 2, 3, 4, 5, 6, 0xF4] } : State).reg j = State.reset.reg j := by decide

theorem witness_OutputOnlyGrowsAndIsNotRead :
    (∃ t, step (stateAt 254 [0x47, 7]) = .next t) ∧
    after (stateAt 254 [0x47, 7]) (fun t => t.out == [0xF4]) = true :=
  ⟨⟨_, rfl⟩, by decide⟩

theorem witness_FaultRegistersNotRead :
    (∃ t, step (stateAt 254 [0x47, 7]) = .next t) ∧
    (∃ t, (State.reset.raise (.boundsFault 258)).halted = true ∧
      step (State.reset.raise (.boundsFault 258)) = .next t) :=
  ⟨⟨_, rfl⟩, ⟨_, rfl, rfl⟩⟩

theorem witness_HaltedWrittenOnlyByStops :
    (∃ t, State.reset.halt.halted = true ∧ step State.reset.halt = .next t) ∧
    (∃ t, (stateAt 255 [0x01]).halted = false ∧ step (stateAt 255 [0x01]) = .next t ∧ t.halted = true) ∧
    (∃ t, (stateAt 0 [0x11]).halted = false ∧ step (stateAt 0 [0x11]) = .next t ∧ t.halted = false) ∧
    (∃ c, State.reset.halt.halted = true ∧
      ({ phase := .started, core := State.reset.halt } : Session).transact .step = some c) :=
  ⟨⟨_, rfl, rfl⟩, ⟨_, by decide, rfl, by decide⟩, ⟨_, by decide, rfl, by decide⟩, ⟨_, rfl, rfl⟩⟩

end Sys2Proof.Tests
end

section
/-! What a step does, told by `firstFailedCheck` (spec/60_exceptions.md R140), and the statements about
`pc` (R15) and `halted` (R16) of spec/10_state.md. -/

namespace Sys2Proof.Machine

/-! ### The running instruction -/

/-- A fault code is never `NONE` (R130). -/
theorem Trap.code_ne_none (e : Trap) : e.code ≠ .none := by cases e <;> simp [Trap.code]

/-- A step has one next state. -/
theorem step_unique {s t u : State} (ht : step s = .next t) (hu : step s = .next u) : t = u :=
  Host.Outcome.next.inj (ht.symm.trans hu)

/-- At most one instruction lies at `pc`. -/
theorem runningAt_unique {s : State} {i j : Instr} (hi : s.runningAt i) (hj : s.runningAt j) : i = j := by
  have h := (fetchWith_codeAt opcodes_valid hi.2).symm.trans (fetchWith_codeAt opcodes_valid hj.2)
  exact (Prod.mk.inj (Except.ok.inj h)).2

/-- The bytes of the running instruction lie below 256. -/
theorem fits_of_runningAt {s : State} {i : Instr} (h : s.runningAt i) :
    s.pc.toNat + i.mnemonic.nOps ≤ 255 := by
  have hlen := h.2.1
  simp only [encode, encodeWith, List.length_cons, Instr.length_operands] at hlen
  omega

/-- The instruction of a step that takes no fault completes. -/
theorem completed_of_step {s t : State} {i : Instr} (hr : s.runningAt i) (hst : step s = .next t)
    (hf : t.fault = .none) :
    ∃ u, Completed i s u ∧ t = advance (Config.opcodes.opcode i.mnemonic) u := by
  rcases exec_cases i s with ⟨u, he, hc⟩ | ⟨e, he, -⟩
  · exact ⟨u, hc, step_unique hst (step_runningAt hr he)⟩
  · obtain rfl := step_unique hst (step_of_exec_raise hr he)
    exact absurd hf e.code_ne_none

/-- The step of a completed instruction moves `pc` over its bytes, but for HLT, CALL and RET (R76). -/
theorem advance_pc_of_completed {s u : State} {i : Instr} (hr : s.runningAt i) (hc : Completed i s u)
    (hi : i ≠ .hlt) (hk : i.mnemonic.setsPc = false) :
    (advance (Config.opcodes.opcode i.mnemonic) u).pc.toNat = s.pc.toNat + i.mnemonic.nOps + 1 := by
  have hpc : u.pc = s.pc := by
    rcases hc.pc_eq with ⟨-, -, h⟩ | ⟨h | h, -⟩
    · exact h
    · simp [h, Mnemonic.setsPc] at hk
    · simp [h, Mnemonic.setsPc] at hk
  rw [advance_pc (by rw [opcodes_valid.setsPc, hk]) (by rw [hc.halted_eq hi, hr.1])
    (by rw [hpc]; exact pc_of_runningAt hr), hpc, opcodeLength, opcodes_valid.nOps, Nat.add_assoc]

/-! ### The checks of R140 -/

theorem firstFailedCheck_pastTop {s : State} (h : 255 < s.pc.toNat) :
    firstFailedCheck s = some (.boundsFault s.pc) := by
  simp [firstFailedCheck, h]

theorem firstFailedCheck_unknown {s : State} (hpc : s.pc.toNat ≤ 255)
    (hl : Config.opcodes.lookup (s.mem.read s.pc.toNat) = none) :
    firstFailedCheck s = some (.illegalOpcode (s.mem.read s.pc.toNat)) := by
  simp [firstFailedCheck, Nat.not_lt.2 hpc, hl]

theorem firstFailedCheck_operandPastTop {s : State} {k : Mnemonic} (hpc : s.pc.toNat ≤ 255)
    (hl : Config.opcodes.lookup (s.mem.read s.pc.toNat) = some k) (hfit : 255 < s.pc.toNat + k.nOps) :
    firstFailedCheck s = some (.boundsFault 256) := by
  have hn : k.nOps ≤ 2 := by cases k <;> decide
  have h : (k.nOps ≥ 1 ∧ s.pc.toNat + 1 > 255) ∨ (k.nOps = 2 ∧ s.pc.toNat + 2 > 255) := by omega
  rcases h with h | h <;> simp [firstFailedCheck, Nat.not_lt.2 hpc, hl, h]

/-- With an instruction at `pc`, what is left of R140 are its handler's checks 5 to 7. -/
theorem firstFailedCheck_of_runningAt {s : State} {i : Instr} (h : s.runningAt i) :
    firstFailedCheck s =
      if i.mnemonic.nOps ≥ 1 ∧ (s.mem.read (s.pc.toNat + 1)).toNat > 7 then
        some (.boundsFault ((s.mem.read (s.pc.toNat + 1)).setWidth 9))
      else if (i.mnemonic = .mul ∨ i.mnemonic = .add) ∧ (s.mem.read (s.pc.toNat + 2)).toNat > 7 then
        some (.boundsFault ((s.mem.read (s.pc.toNat + 2)).setWidth 9))
      else if i.mnemonic = .pop ∧ s.sp = Config.spReset then some (.stackUnderflow Config.spReset)
      else none := by
  have hfit := fits_of_runningAt h
  have h₁ : ¬(i.mnemonic.nOps ≥ 1 ∧ s.pc.toNat + 1 > 255) := by omega
  have h₂ : ¬(i.mnemonic.nOps = 2 ∧ s.pc.toNat + 2 > 255) := by omega
  simp only [firstFailedCheck, Nat.not_lt.2 (pc_of_runningAt h), lookup_of_runningAt h, h₁, h₂, if_false]

/-- The register operands come first among the operands (R53). -/
theorem regOperands_initial_operands (i : Instr) : i.regOperands <+: i.operands := by
  cases i <;> simp [Instr.regOperands, Instr.operands]

/-- The register operands lie behind the opcode. -/
theorem regOperand_of_runningAt {s : State} {i : Instr} (h : s.runningAt i) (k : Nat)
    (hk : k < i.regOperands.length) : s.mem.read (s.pc.toNat + (k + 1)) = i.regOperands[k] := by
  have hp := regOperands_initial_operands i
  rw [operand_of_runningAt h k (hk.trans_le hp.length_le), hp.getElem hk]

/-- A fault of the handler is the first check of R140 that fails. -/
theorem Trapped.firstFailedCheck_eq {i : Instr} {s : State} {e : Trap} (h : Trapped i s e)
    (hr : s.runningAt i) : firstFailedCheck s = some e := by
  rw [firstFailedCheck_of_runningAt hr]
  cases h with
  | @operandA i s r rest hi h =>
    have ha : s.mem.read (s.pc.toNat + 1) = r := by
      simpa [hi] using regOperand_of_runningAt hr 0 (by simp [hi])
    have hn : i.mnemonic.nOps ≥ 1 := by
      rw [← Instr.length_operands]
      exact (by simp [hi] : 1 ≤ i.regOperands.length).trans (regOperands_initial_operands i).length_le
    rw [ha, if_pos ⟨hn, h⟩]
  | @operandB i s a b hi ha h =>
    have hra : s.mem.read (s.pc.toNat + 1) = a := by
      simpa [hi] using regOperand_of_runningAt hr 0 (by simp [hi])
    have hrb : s.mem.read (s.pc.toNat + 2) = b := by
      simpa [hi] using regOperand_of_runningAt hr 1 (by simp [hi])
    have hk : i.mnemonic = .mul ∨ i.mnemonic = .add := by
      cases i <;> simp [Instr.regOperands, Instr.mnemonic] at hi ⊢
    rw [hra, hrb, if_neg (by omega), if_pos ⟨hk, h⟩]
  | @underflow s r h hs =>
    have ha : s.mem.read (s.pc.toNat + 1) = r := regOperand_of_runningAt hr 0 Nat.one_pos
    rw [ha, if_neg (by omega), if_neg (by simp [Instr.mnemonic]), if_pos ⟨rfl, hs⟩]
    rfl

/-- The register operands of a completed instruction are valid, and POP found no empty stack. -/
theorem Completed.checks {i : Instr} {s t : State} (h : Completed i s t) :
    (∀ r ∈ i.regOperands, r.toNat < 8) ∧ (i.mnemonic = .pop → s.sp ≠ Config.spReset) := by
  cases h with
  | hlt | ret => simp [Instr.regOperands, Instr.mnemonic]
  | ldi _ h | prn _ h | push _ h | call _ h => simp [Instr.regOperands, Instr.mnemonic, h]
  | mul _ ha hb | add _ ha hb => simp [Instr.regOperands, Instr.mnemonic, ha, hb]
  | pop _ h hs => exact ⟨by simpa [Instr.regOperands] using h, fun _ => hs⟩

/-- No check of R140 fails when the instruction completes. -/
theorem Completed.firstFailedCheck_eq {i : Instr} {s t : State} (h : Completed i s t)
    (hr : s.runningAt i) : firstFailedCheck s = none := by
  obtain ⟨hreg, hpop⟩ := h.checks
  have hvalid (k : Nat) (hk : k < i.regOperands.length) : (s.mem.read (s.pc.toNat + (k + 1))).toNat < 8 := by
    rw [regOperand_of_runningAt hr k hk]
    exact hreg _ (List.getElem_mem hk)
  have ha : ¬(i.mnemonic.nOps ≥ 1 ∧ (s.mem.read (s.pc.toNat + 1)).toNat > 7) := fun ⟨hn, hbad⟩ => by
    have : (s.mem.read (s.pc.toNat + 1)).toNat < 8 :=
      hvalid 0 (by cases i <;> simp [Instr.mnemonic, Mnemonic.nOps, Instr.regOperands] at hn ⊢)
    omega
  have hb : ¬((i.mnemonic = .mul ∨ i.mnemonic = .add) ∧ (s.mem.read (s.pc.toNat + 2)).toNat > 7) :=
    fun ⟨hk, hbad⟩ => by
      have : (s.mem.read (s.pc.toNat + 2)).toNat < 8 :=
        hvalid 1 (by cases i <;> simp [Instr.mnemonic, Instr.regOperands] at hk ⊢)
      omega
  rw [firstFailedCheck_of_runningAt hr, if_neg ha, if_neg hb, if_neg fun ⟨hk, hs⟩ => hpop hk hs]

/-- A running machine takes the first fault of R140, or it completes the instruction at `pc`. -/
theorem step_checked {s : State} (hh : s.halted = false) :
    (∃ e, firstFailedCheck s = some e ∧ step s = .next (s.raise e)) ∨
    (∃ i t, firstFailedCheck s = none ∧ s.runningAt i ∧ Completed i s t ∧
      step s = .next (advance (Config.opcodes.opcode i.mnemonic) t)) := by
  rcases step_cases s with ⟨h, -⟩ | ⟨-, h, hs⟩ | ⟨-, h, hl, hs⟩ | ⟨k, -, h, hl, hk, hs⟩ |
    ⟨i, e, hr, ht, hs⟩ | ⟨i, t, hr, hc, hs⟩
  · simp [hh] at h
  · exact .inl ⟨_, firstFailedCheck_pastTop h, hs⟩
  · exact .inl ⟨_, firstFailedCheck_unknown h hl, hs⟩
  · exact .inl ⟨_, firstFailedCheck_operandPastTop h hl hk, hs⟩
  · exact .inl ⟨e, ht.firstFailedCheck_eq hr, hs⟩
  · exact .inr ⟨i, t, hc.firstFailedCheck_eq hr, hr, hc, hs⟩

/-- A step into a fault changes nothing but the fault entry (R136). -/
theorem eq_raise_of_step_fault {s t : State} (hf : s.fault = .none) (hst : step s = .next t)
    (ht : t.fault ≠ .none) : ∃ e : Trap, t = s.raise e := by
  cases hh : s.halted with
  | true =>
    obtain rfl := step_unique hst (step_halted hh)
    exact absurd hf ht
  | false =>
    rcases step_checked hh with ⟨e, -, hs⟩ | ⟨i, u, -, -, hc, hs⟩
    · exact ⟨e, step_unique hst hs⟩
    · obtain rfl := step_unique hst hs
      exact absurd (by simp [hc.fault_eq.1, hf]) ht

/-! ### `halted` -/

/-- The state with `halted` set to `b`. -/
def State.withHalted (s : State) (b : Bool) : State := { s with halted := b }

/-- A completed instruction does the same whatever `halted` holds, but for `halted` itself (R16). -/
theorem Completed.withHalted {i : Instr} {s t : State} (h : Completed i s t) (b : Bool) :
    ∃ c, Completed i (s.withHalted b) (t.withHalted c) := by
  cases h with
  | hlt => exact ⟨true, .hlt _⟩
  | ldi _ h v => exact ⟨b, .ldi _ h v⟩
  | prn _ h => exact ⟨b, .prn _ h⟩
  | mul _ ha hb => exact ⟨b, .mul _ ha hb⟩
  | add _ ha hb => exact ⟨b, .add _ ha hb⟩
  | push _ h => exact ⟨b, .push _ h⟩
  | pop _ h hs => exact ⟨b, .pop _ h hs⟩
  | call _ h => exact ⟨b, .call _ h⟩
  | ret => exact ⟨b, .ret _⟩

/-- The fault of a handler does not depend on `halted`. -/
theorem Trapped.withHalted {i : Instr} {s : State} {e : Trap} (h : Trapped i s e) (b : Bool) :
    Trapped i (s.withHalted b) e := by
  cases h with
  | operandA hi h => exact .operandA hi h
  | operandB hi ha h => exact .operandB hi ha h
  | underflow h hs => exact .underflow h hs

/-- No instruction reads `halted` (R16). -/
theorem exec_withHalted (i : Instr) (s : State) (b : Bool) :
    ∃ t c, exec i s = .next t ∧ exec i (s.withHalted b) = .next (t.withHalted c) := by
  rcases exec_cases i s with ⟨t, he, hc⟩ | ⟨e, he, ht⟩
  · obtain ⟨c, hc'⟩ := hc.withHalted b
    exact ⟨t, c, he, hc'.exec_eq⟩
  · exact ⟨_, true, he, (ht.withHalted b).exec_eq⟩

/-- A completed step halts the machine exactly when it ran HLT. -/
theorem halted_of_completed {s t : State} {i : Instr} (hr : s.runningAt i) (hc : Completed i s t) :
    t.halted = true ↔ s.runningAt .hlt := by
  constructor
  · intro ht
    by_cases hi : i = .hlt
    · exact hi ▸ hr
    · simp [hc.halted_eq hi, hr.1] at ht
  · intro hhlt
    obtain rfl := runningAt_unique hr hhlt
    cases hc
    rfl

/-- A load leaves `halted` alone (R163). -/
theorem load_halted {image : List Byte} {s t : State} (h : load image s = .next t) : t.halted = s.halted := by
  unfold load at h
  split at h <;> cases h
  rfl

/-- An allowed load puts the loaded state into the session (R166). -/
theorem transact_load {c c' : Session} {image : List Byte} (h : c.transact (.load image) = some c') :
    ∃ s, load image c.core = .next s ∧ c' = { phase := .loaded, core := s } := by
  unfold Session.transact at h
  cases hp : c.phase with
  | constructed =>
    cases hl : load image c.core with
    | next s => exact ⟨s, rfl, by simpa [hp, hl] using h.symm⟩
    | fault f => cases f
    | refused r => simp [hp, hl] at h
  | loaded | started => simp [hp] at h

/-- A halted core stays halted under every transaction but reset (R16, R166). -/
theorem transact_keeps_halted {c c' : Session} {t : Transaction} (hh : c.core.halted = true)
    (h : c.transact t = some c') : t = .reset ∨ c'.core.halted = true := by
  cases t with
  | reset => exact .inl rfl
  | load image =>
    obtain ⟨s, hl, rfl⟩ := transact_load h
    exact .inr ((load_halted hl).trans hh)
  | step =>
    simp only [Session.transact, step_halted hh, Option.some.injEq] at h
    exact .inr (h ▸ hh)
  | run fuel => simp [Session.transact, hh] at h

/-! ### The statements -/

/-- Settles O48: a fault leaves the state's `pc`, and a completed instruction leaves it as its own case of
`Completed` and the advance of R76 say. -/
theorem pcTable : Obligations.PcTable := by
  intro s t hh hf hst
  refine ⟨fun ht => ?_, fun ht i hr => ?_⟩
  · obtain ⟨e, rfl⟩ := eq_raise_of_step_fault hf hst ht
    rfl
  · obtain ⟨u, hc, rfl⟩ := completed_of_step hr hst ht
    cases i with
    | hlt => cases hc; rw [advance_of_halted _ rfl]; rfl
    | ldi | mul | add | prn | push | pop => exact advance_pc_of_completed hr hc nofun rfl
    | call r =>
      rw [advance_setsPc (opcodes_valid.setsPc _)]
      cases hc with
      | call _ h => exact ⟨h, by simp [State.decSp_reg]⟩
    | ret =>
      rw [advance_setsPc (opcodes_valid.setsPc _)]
      cases hc
      simp

/-- Settles O52: `halted` is set by a failed check of R140 or by HLT, and every other case of a step, an
instruction or a transaction keeps it or does not read it. -/
theorem haltedWrittenOnlyByStops : Obligations.HaltedWrittenOnlyByStops := by
  refine ⟨fun s t hst => ⟨fun hh => ?_, fun hh => ?_⟩, fun i s b => ?_, fun c c' t => transact_keeps_halted⟩
  · obtain rfl := step_unique hst (step_halted hh)
    exact hh
  · rcases step_checked hh with ⟨e, he, hs⟩ | ⟨i, u, hn, hr, hc, hs⟩
    · obtain rfl := step_unique hst hs
      exact iff_of_true rfl (.inr ⟨e, he⟩)
    · obtain rfl := step_unique hst hs
      simpa [hn] using halted_of_completed hr hc
  · obtain ⟨t, c, he, he'⟩ := exec_withHalted i s b
    exact ⟨t, t.withHalted c, he, he', rfl, rfl, rfl, rfl, rfl, rfl⟩

end Sys2Proof.Machine
end

section
/-! The statements about memory access of spec/20_memory.md. -/

namespace Sys2Proof.Machine

/-- Settles O11, from `memRead_ok` and `memRead_error`: the 9 bits of the info value hold every address
below 512 (log 5). -/
theorem memReadChecked : Obligations.MemReadChecked := by
  intro s addr
  refine ⟨memRead_ok s, fun h => ⟨BitVec.ofNat 9 addr, memRead_error s h, fun h9 => ?_⟩⟩
  exact (BitVec.toNat_ofNat addr 9).trans (Nat.mod_eq_of_lt h9)

end Sys2Proof.Machine
end

section
/-! The decode procedure of spec/30_encoding.md (R57, R72). -/

namespace Sys2Proof

/-- A mask of one bit after a shift is bit 4. -/
theorem opcodeSetsPc_iff (ir : Byte) : opcodeSetsPc ir = true ↔ (ir >>> 4) &&& 1#8 = 1#8 := by
  revert ir; decide

/-- A byte that no row has is rejected as an unknown opcode (R58). -/
theorem decodeWith_miss {m : OpcodeMap} {ir : Byte} (h : m.lookup ir = none) (rest : List Byte) :
    decodeWith m (ir :: rest) = .error (.unknownOpcode ir) := by
  simp [decodeWith, h]

/-- A row's byte with its operand bytes behind it decodes, and the bytes after them are left over. -/
theorem decodeWith_hit {m : OpcodeMap} {ir : Byte} {k : Mnemonic} {rest : List Byte} {i : Instr}
    (hl : m.lookup ir = some k) (hn : opcodeNOps ir ≤ rest.length)
    (hb : Instr.build k (rest.take (opcodeNOps ir)) = some i) :
    decodeWith m (ir :: rest) = .ok (i, rest.drop (opcodeNOps ir)) := by
  simp [decodeWith, hl, Nat.not_lt.2 hn, hb]

/-- Under a legal assignment, enough bytes behind a row's byte make an instruction of that row. -/
theorem OpcodeMap.Valid.build_take {m : OpcodeMap} (hm : m.Valid) (k : Mnemonic) {rest : List Byte}
    (hn : opcodeNOps (m.opcode k) ≤ rest.length) :
    ∃ i, Instr.build k (rest.take (opcodeNOps (m.opcode k))) = some i :=
  Instr.build_isSome ((List.length_take_of_le hn).trans (hm.nOps k))

/-- Settles O3: a hit builds its row from the bytes that bits 7:6 announce, which a legal assignment makes
the row's own count, and a miss is `decodeWith_miss`. -/
theorem decodeProcedure : Obligations.DecodeProcedure := by
  intro m hm ir rest
  refine ⟨opcodeNOps_eq ir, rfl, opcodeSetsPc_iff ir, ?hit, fun h => ?miss⟩
  case miss => exact decodeWith_miss (OpcodeMap.lookup_none.2 h) rest
  case hit =>
    rintro k rfl hlen
    have hn : opcodeNOps (m.opcode k) ≤ rest.length := Nat.le_of_succ_le_succ hlen
    obtain ⟨i, hb⟩ := hm.build_take k hn
    refine ⟨i, _, decodeWith_hit (hm.lookup_opcode k) hn hb, (Instr.of_build hb).1, ?_⟩
    simp only [List.length_drop, List.length_cons, opcodeLength]
    omega

end Sys2Proof
end

section
/-! The statements about the step of spec/40_execution_loop.md: the advance of `pc` (R76), HLT (R78), and a
fetch of the byte the step before it stored (R42, R73). -/

namespace Sys2Proof.Machine

/-! ### `pc` after a handler -/

/-- A completed handler whose row does not set `pc` leaves `pc` alone. -/
theorem Completed.pc_of_not_setsPc {i : Instr} {s t : State} (h : Completed i s t)
    (hk : i.mnemonic.setsPc = false) : t.pc = s.pc := by
  rcases h.pc_eq with ⟨-, -, hpc⟩ | ⟨hcall | hret, -⟩
  · exact hpc
  · simp [hcall, Mnemonic.setsPc] at hk
  · simp [hret, Mnemonic.setsPc] at hk

/-- A handler whose row does not set `pc` leaves `pc` alone, whether it completes or faults. -/
theorem pc_of_exec {i : Instr} {s t : State} (he : exec i s = .next t) (hk : i.mnemonic.setsPc = false) :
    t.pc = s.pc := by
  rcases exec_cases i s with ⟨u, hu, hc⟩ | ⟨e, hu, -⟩
  · obtain rfl := Host.Outcome.next.inj (he.symm.trans hu)
    exact hc.pc_of_not_setsPc hk
  · obtain rfl := Host.Outcome.next.inj (he.symm.trans hu)
    rfl

/-- A machine that the handler halted, or whose opcode sets `pc`, is not advanced (R76). -/
theorem advance_eq_self {ir : Byte} {s : State} (h : s.halted = true ∨ opcodeSetsPc ir = true) :
    advance ir s = s :=
  h.elim (advance_of_halted ir) fun hp => advance_setsPc hp s

/-! ### Steps of a running machine, by the byte at `pc` -/

/-- A `pc` above 255 is a fetch fault (R71, D4). -/
theorem step_pastTop {s : State} (hh : s.halted = false) (hpc : 255 < s.pc.toNat) :
    step s = .next (s.raise (.boundsFault s.pc)) :=
  stepWith_fetchError hh (fetchWith_pastTop _ hpc)

/-- A byte that no row has is an illegal opcode (R73, D6). -/
theorem step_unknown {s : State} (hh : s.halted = false) (hpc : s.pc.toNat ≤ 255)
    (hb : ∀ k, Config.opcodes.opcode k ≠ s.mem.read s.pc.toNat) :
    step s = .next (s.raise (.illegalOpcode (s.mem.read s.pc.toNat))) :=
  stepWith_fetchError hh (fetchWith_unknown hpc (OpcodeMap.lookup_none.2 hb))

/-- The HLT byte halts the machine and changes nothing else (R78). -/
theorem step_hlt {s : State} (hh : s.halted = false) (hpc : s.pc.toNat ≤ 255)
    (hb : s.mem.read s.pc.toNat = Config.opcodes.hlt) : step s = .next s.halt := by
  have hr : s.runningAt .hlt := ⟨hh, codeAt_single hpc hb⟩
  rw [step_runningAt hr (execHlt_eq s), advance_of_halted _ s.halt_halted]

/-! ### The store of PUSH -/

/-- PUSH and CALL store at SP minus one. -/
theorem pushAddr_eq (s : State) : pushAddr s = (s.sp - 1).toNat := by
  rw [pushAddr, State.decSp_sp]

/-- The step of a PUSH of `x[0]` to `x[6]` leaves the machine running behind its two bytes, with the
register's value at the push address (R110). -/
theorem step_push {s : State} {r : RegOperand} (hr7 : r.toNat < 7) (hw : s.mem.wf = true)
    (hr : s.runningAt (.push r)) :
    ∃ u, step s = .next u ∧ u.halted = false ∧ u.pc.toNat = s.pc.toNat + 2 ∧
      u.mem.read (pushAddr s) = s.reg ⟨r.toNat, by omega⟩ := by
  obtain ⟨u, hst, -, hmem, -, ⟨hhalt, -, -⟩, hpc⟩ :=
    step_of_exec_advanced hr (execPush_ok (Nat.lt_succ_of_lt hr7) s) rfl (State.pushed_halted ..) rfl
  have hne : (⟨r.toNat, by omega⟩ : Fin 8) ≠ 7 := by simp only [ne_eq, Fin.ext_iff]; omega
  refine ⟨u, hst, hhalt.trans hr.1, hpc, ?_⟩
  rw [hmem, pushAddr_eq, State.pushed_mem, Memory.read_write_same hw, State.decSp_reg_other s hne]

/-! ### The statements -/

/-- Settles O29: the step is the handler and then `advance`, which moves only `pc`, and moves it by `length`
exactly when the handler left the machine running and its row does not set `pc`. -/
theorem advanceRule : Obligations.AdvanceRule := by
  refine ⟨fun s t i hr he => ?handler, fun s t _ hf hst ht => ?fault⟩
  case handler =>
    refine ⟨_, step_runningAt hr he, fun j _ => advance_reg _ t j, fun a => by rw [advance_mem],
      advance_out _ t, ⟨advance_halted _ t, advance_fault _ t, advance_faultInfo _ t⟩,
      fun hrun hp => ?advanced, fun h => by rw [advance_eq_self h], ?hlt⟩
    case advanced =>
      have hpc : t.pc = s.pc := pc_of_exec he (opcodes_valid.setsPc i.mnemonic ▸ hp)
      rw [advance_pc hp hrun (hpc ▸ pc_of_runningAt hr), hpc]
    case hlt =>
      rintro rfl
      obtain rfl := Host.Outcome.next.inj ((execHlt_eq s).symm.trans he)
      rw [advance_of_halted _ s.halt_halted, State.halt_pc]
  case fault =>
    obtain ⟨e, rfl⟩ := eq_raise_of_step_fault hf hst ht
    rfl

/-- Settles O43: behind a PUSH the machine is running, and the byte at its `pc` is the one stored. -/
theorem nextFetchSeesStore : Obligations.NextFetchSeesStore := by
  intro s r h hw hr haddr
  obtain ⟨u, hst, hrun, hpc, hread⟩ := step_push h hw hr
  have htop : u.pc.toNat ≤ 255 := by
    rw [hpc, ← haddr]
    exact Nat.le_of_lt_succ s.decSp.sp.isLt
  have hbyte : u.mem.read u.pc.toNat = s.reg ⟨r.toNat, by omega⟩ := by
    rw [hpc, ← haddr, hread]
  rw [← hbyte]
  exact ⟨u, hst, step_hlt hrun htop, step_unknown hrun htop⟩

/-- Settles O31, by `step_hlt` at every `pc` with a cell and `step_pastTop` above. -/
theorem stepHlt : Obligations.StepHlt := by
  refine ⟨fun s hh hpc hb => ?_, fun s => step_pastTop⟩
  exact ⟨s.halt, step_hlt hh hpc hb, rfl, rfl, rfl, rfl, fun _ _ => rfl, fun _ => rfl, rfl⟩

end Sys2Proof.Machine
end

section
/-! The statement about the whole step of LDI in spec/41_load_and_print.md (R90). -/

namespace Sys2Proof.Machine

/-- The step of a handler whose only effect is a byte `v` in `x[j]`: that register reads `v`, `pc` moves over
the instruction's bytes, and everything else stays. -/
theorem step_of_exec_setReg {s : State} {i : Instr} {j : Fin 8} {v : Byte} (hr : s.runningAt i)
    (he : exec i s = .next (s.setReg j v.toNat)) (hk : i.mnemonic.setsPc = false) :
    ∃ t, step s = .next t ∧ t.reg j = v ∧ SameRegsBut [j] s t ∧ SameMemory s t ∧ t.out = s.out ∧
      SameRunState s t ∧ t.pc.toNat = s.pc.toNat + 1 + i.mnemonic.nOps := by
  obtain ⟨t, hst, hregs, hmem, hout, hrun, hpc⟩ := step_of_exec_advanced hr he hk rfl rfl
  have hreg : t.reg j = v := (State.reg_congr hregs j).trans (s.reg_setReg_byte j v)
  have hother : SameRegsBut [j] s t := fun k hkj =>
    (State.reg_congr hregs k).trans (s.reg_setReg_other (List.ne_of_not_mem_cons hkj) _)
  exact ⟨t, hst, hreg, hother, fun a => congrArg (·.read a) hmem, hout, hrun, hpc⟩

/-- Settles O32: a valid register is written by `execLdi_ok`, an index above 7 is the fault of
`execLdi_error`, and at 254 and 255 one of the two operand bytes would lie past the top of memory. -/
theorem stepLdi : Obligations.StepLdi := by
  refine ⟨fun s r v hr => ⟨fun h => ?written, fun h => ?badIndex⟩, fun s hh hpc hb => ?operandPastTop⟩
  case written => exact step_of_exec_setReg hr (execLdi_ok h v s) rfl
  case badIndex => exact step_of_exec_raise hr (execLdi_error h v s)
  case operandPastTop =>
    have hfit : 255 < s.pc.toNat + Mnemonic.ldi.nOps := by simp only [Mnemonic.nOps]; omega
    exact step_operandPastTop (k := .ldi) hh (by omega) hb hfit

end Sys2Proof.Machine
end

section
/-! The statements of spec/42_alu.md: the ALU (R100), its register wrapper (R101), and the whole steps of MUL
(R102) and ADD (R103). -/

namespace Sys2Proof.Machine

/-- A fault of the running instruction's handler is the step's fault. -/
theorem step_of_trapped {s : State} {i : Instr} {e : Trap} (hr : s.runningAt i) (h : Trapped i s e) :
    step s = .next (s.raise e) :=
  step_of_exec_raise hr h.exec_eq

/-- A row with two operand bytes has no room for both at 254 and 255 (R33, D3). -/
theorem step_twoOperandsPastTop {s : State} {k : Mnemonic} (hk : k.nOps = 2) (hh : s.halted = false)
    (hpc : s.pc.toNat = 254 ∨ s.pc.toNat = 255) (hb : s.mem.read s.pc.toNat = Config.opcodes.opcode k) :
    step s = .next (s.raise (.boundsFault 256)) :=
  step_operandPastTop hh (by omega) hb (by omega)

/-- The low byte of a product does not depend on whether the factors are read as unsigned or as two's
complement (R102). -/
theorem mul_eq_ofInt_toInt_mul (p q : Byte) : p * q = BitVec.ofInt 8 (p.toInt * q.toInt) := by
  rw [BitVec.ofInt_mul, BitVec.ofInt_toInt, BitVec.ofInt_toInt]

/-- Settles O16: with both indices valid the wrapper is the ALU's answer on the two registers, written to
`x[a]` when it is a value. -/
theorem aluApply_spec : Obligations.AluApply := by
  refine fun op a b s => ⟨fun ha => aluApply_error_a ha b op s,
    fun ha hb => aluApply_error_b (Nat.lt_succ_of_le ha) hb op s,
    fun ha hb => ⟨fun v hv => ?written, fun e he => ?faulted⟩⟩
  case written =>
    have happly : aluApply op a b s = .ok (s.setReg ⟨a.toNat, ha⟩ v.toNat) := by
      rw [aluApply_ok ha hb, hv, checked_bind_ok]
    have hother : SameRegsBut [⟨a.toNat, ha⟩] s (s.setReg ⟨a.toNat, ha⟩ v.toNat) :=
      fun j hj => s.reg_setReg_other (List.ne_of_not_mem_cons hj) _
    exact ⟨_, happly, s.reg_setReg_byte _ v, hother, fun _ => rfl, rfl, rfl, rfl, rfl, rfl⟩
  case faulted => rw [aluApply_ok ha hb, he, checked_bind_error]

/-- Settles O34: `execMul_ok` writes the product of the bytes, which both readings of the operands give; each
invalid index is the handler's fault, and at 254 and 255 the operands do not fit. -/
theorem stepMul : Obligations.StepMul := by
  refine ⟨fun s a b hr => ⟨fun ha hb => ?product, fun ha => ?badA, fun ha hb => ?badB⟩,
    fun s hh hpc hop => step_twoOperandsPastTop (k := .mul) rfl hh hpc hop⟩
  case product =>
    obtain ⟨t, hst, hreg, hrest⟩ := step_of_exec_setReg hr (execMul_ok ha hb s) rfl
    exact ⟨t, hst, hreg ▸ BitVec.toNat_mul .., hreg.trans (mul_eq_ofInt_toInt_mul ..), hrest⟩
  case badA => exact step_of_trapped hr (.operandA rfl ha)
  case badB => exact step_of_trapped hr (.operandB rfl (Nat.lt_succ_of_le ha) hb)

/-- Settles O35: `execAdd_ok` writes the sum of the bytes; each invalid index is the handler's fault, and at
254 and 255 the operands do not fit. -/
theorem stepAdd : Obligations.StepAdd := by
  refine ⟨fun s a b hr => ⟨fun ha hb => ?sum, fun ha => ?badA, fun ha hb => ?badB⟩,
    fun s hh hpc hop => step_twoOperandsPastTop (k := .add) rfl hh hpc hop⟩
  case sum =>
    obtain ⟨t, hst, hreg, hrest⟩ := step_of_exec_setReg hr (execAdd_ok ha hb s) rfl
    exact ⟨t, hst, hreg ▸ BitVec.toNat_add .., hrest⟩
  case badA => exact step_of_trapped hr (.operandA rfl ha)
  case badB => exact step_of_trapped hr (.operandB rfl (Nat.lt_succ_of_le ha) hb)

/-- Settles O14: the sum and the product are those of the bit vectors, and the difference is `wrap8`'s
modulus of the integer difference. -/
theorem aluResults : Obligations.AluResults := fun va vb =>
  ⟨⟨_, alu_add va vb, BitVec.toNat_add ..⟩, ⟨_, rfl, wrap8_toInt_mod _⟩,
    ⟨_, alu_mul va vb, BitVec.toNat_mul ..⟩, rfl⟩

end Sys2Proof.Machine
end

section
/-! HALTED is terminal (spec/60_exceptions.md R151): what each transaction of R166 but reset does to a
halted core. -/

namespace Sys2Proof.Machine

/-- A load is not allowed once the machine has stepped (R163, R166). -/
theorem transact_load_of_started {c : Session} (hp : c.phase = .started) (image : List Byte) :
    c.transact (.load image) = none := by
  simp [Session.transact, hp]

/-- A step transaction of a halted core is allowed and keeps the core (R166). -/
theorem transact_step_of_halted {c : Session} (hh : c.core.halted = true) :
    c.transact .step = some { phase := .started, core := c.core } := by
  simp [Session.transact, step_halted hh]

/-- A run is not allowed on a halted core (R166). -/
theorem transact_run_of_halted {c : Session} (hh : c.core.halted = true) (fuel : Nat) :
    c.transact (.run fuel) = none := by
  simp [Session.transact, hh]

/-- Settles O30: a halted machine answers its own state, and of the transactions but reset a started session
with a halted core allows only the step, which keeps the core. -/
theorem haltedIsTerminal : Obligations.HaltedIsTerminal := by
  refine ⟨fun s => step_halted, fun c c' t hp hh h => ?_⟩
  cases t with
  | reset => exact .inl rfl
  | load image => cases (transact_load_of_started hp image).symm.trans h
  | step =>
    cases (transact_step_of_halted hh).symm.trans h
    exact .inr rfl
  | run fuel => cases (transact_run_of_halted hh fuel).symm.trans h

end Sys2Proof.Machine
end

section
/-! The round trips of the decoder and the encoder, and the default opcode bytes (spec/30_encoding.md R51,
R55 to R58). -/

namespace Sys2Proof

/-- What the decoder accepts: a row's byte, the operand bytes of that row, and the bytes left over. -/
theorem decodeWith_ok_inv {m : OpcodeMap} {bs rest : List Byte} {i : Instr} (h : decodeWith m bs = .ok (i, rest)) :
    ∃ ir k ops, bs = ir :: (ops ++ rest) ∧ m.lookup ir = some k ∧ Instr.build k ops = some i := by
  unfold decodeWith at h
  split at h
  next => cases h
  next ir tail =>
    split at h
    next => cases h
    next k hl =>
      split at h
      next => cases h
      next =>
        split at h
        next j hb =>
          cases h
          exact ⟨ir, k, _, by rw [List.take_append_drop], hl, hb⟩
        next => cases h

/-- The byte values that have a row are the nine bytes of the rows. -/
theorem OpcodeMap.known_bytes (m : OpcodeMap) (n : Nat) :
    (n < 256 ∧ m.lookup (BitVec.ofNat 8 n) ≠ none) ↔ ∃ k, (m.opcode k).toNat = n := by
  simp only [ne_eq, OpcodeMap.lookup_none, not_forall, not_not]
  constructor
  · rintro ⟨hn, k, hk⟩
    exact ⟨k, by rw [hk, BitVec.toNat_ofNat, Nat.mod_eq_of_lt hn]⟩
  · rintro ⟨k, rfl⟩
    exact ⟨(m.opcode k).isLt, k, by rw [BitVec.ofNat_toNat, BitVec.setWidth_eq]⟩

/-- A legal assignment leaves 247 byte values unknown: all but its nine distinct ones (R58). -/
theorem OpcodeMap.Valid.count_unknown {m : OpcodeMap} (hm : m.Valid) :
    ((List.range 256).filter fun n => m.lookup (BitVec.ofNat 8 n) == none).length = 247 := by
  have hinj : Function.Injective fun k => (m.opcode k).toNat := fun _ _ h => hm.distinct (BitVec.eq_of_toNat_eq h)
  have hnodup : (Mnemonic.all.map fun k => (m.opcode k).toNat).Nodup := (by decide : Mnemonic.all.Nodup).map hinj
  have hknown : ((List.range 256).filter fun n => !(m.lookup (BitVec.ofNat 8 n) == none)).Perm
      (Mnemonic.all.map fun k => (m.opcode k).toNat) := by
    rw [List.perm_ext_iff_of_nodup (List.nodup_range.filter _) hnodup]
    intro n
    simpa [Option.isSome_iff_ne_none] using m.known_bytes n
  have hnine := hknown.length_eq
  have hall := List.length_eq_length_filter_add (l := List.range 256)
    fun n => m.lookup (BitVec.ofNat 8 n) == none
  rw [List.length_map] at hnine
  rw [hnine, List.length_range] at hall
  simp only [Mnemonic.all, List.length_cons, List.length_nil] at hall
  omega

/-- Settles O1: bits 7:6 of a legal opcode byte announce exactly the operand bytes of the encoding, and a row
with its own operand bytes builds the instruction back. -/
theorem decodeEncodeRoundTrip : Obligations.DecodeEncodeRoundTrip := by
  intro m hm i rest
  have hn : opcodeNOps (m.opcode i.mnemonic) = i.operands.length := by rw [hm.nOps, Instr.length_operands]
  have hfit : opcodeNOps (m.opcode i.mnemonic) ≤ (i.operands ++ rest).length := by
    rw [hn, List.length_append]
    exact Nat.le_add_right ..
  have hb : Instr.build i.mnemonic ((i.operands ++ rest).take (opcodeNOps (m.opcode i.mnemonic))) = some i := by
    rw [hn, List.take_left, Instr.build_operands]
  have hdec := decodeWith_hit (hm.lookup_opcode i.mnemonic) hfit hb
  rwa [hn, List.drop_left] at hdec

/-- Settles O2: the row the opcode byte was found in and the operand bytes it was built from are the ones the
encoder writes, whatever the assignment (log 14: a byte with the wrong operand count is rejected). -/
theorem encodeDecodeRoundTrip : Obligations.EncodeDecodeRoundTrip := by
  intro m bs rest i h
  obtain ⟨ir, k, ops, rfl, hl, hb⟩ := decodeWith_ok_inv h
  obtain ⟨rfl, rfl⟩ := Instr.of_build hb
  rw [encodeWith, OpcodeMap.opcode_of_lookup hl, List.cons_append]

/-- Settles O4: the default assignment is legal, and a legal one leaves 247 bytes unknown. -/
theorem defaultOpcodesLegal : Obligations.DefaultOpcodesLegal := ⟨opcodes_valid, opcodes_valid.count_unknown⟩

/-- Settles O5, by running the decoder on the nine words. -/
theorem sampleWordsDecode : Obligations.SampleWordsDecode := by
  unfold Obligations.SampleWordsDecode
  decide

end Sys2Proof
end

section
/-! The invariant of spec/10_state.md (R22, R18), from reset through every step to every session, and the start
state of a run (spec/70_reset_and_hazards.md R161 to R164). -/

namespace Sys2Proof.Machine

/-! ### The faults a step can take -/

/-- Inversion of a step: the machine was halted, or it took the first failed check of R140, or it completed the
instruction at `pc`. -/
theorem step_next_cases {s t : State} (hst : step s = .next t) :
    (s.halted = true ∧ t = s) ∨
    (∃ e, s.halted = false ∧ firstFailedCheck s = some e ∧ t = s.raise e) ∨
    (∃ i u, firstFailedCheck s = none ∧ s.runningAt i ∧ Completed i s u ∧
      t = advance (Config.opcodes.opcode i.mnemonic) u) := by
  cases hh : s.halted with
  | true => exact .inl ⟨rfl, step_unique hst (step_halted hh)⟩
  | false =>
    rcases step_checked hh with ⟨e, he, hs⟩ | ⟨i, u, hn, hr, hc, hs⟩
    · exact .inr (.inl ⟨e, rfl, he, step_unique hst hs⟩)
    · exact .inr (.inr ⟨i, u, hn, hr, hc, step_unique hst hs⟩)

/-- What the first failed check of R140 can be: `pc` past 255; an unknown opcode; or, with a known opcode, the
sentinel of POP or an operand's address or index. -/
theorem firstFailedCheck_cases {s : State} {e : Trap} (h : firstFailedCheck s = some e) :
    (255 < s.pc.toNat ∧ e = .boundsFault s.pc) ∨
    (s.pc.toNat ≤ 255 ∧ Config.opcodes.lookup (s.mem.read s.pc.toNat) = none ∧
      e = .illegalOpcode (s.mem.read s.pc.toNat)) ∨
    (∃ k, Config.opcodes.lookup (s.mem.read s.pc.toNat) = some k ∧
      (e = .stackUnderflow Config.spReset ∨
        ∃ info, e = .boundsFault info ∧ 8 ≤ info.toNat ∧ info.toNat ≤ 256)) := by
  have index (r : Byte) (hr : r.toNat > 7) : 8 ≤ (r.setWidth 9).toNat ∧ (r.setWidth 9).toNat ≤ 256 := by
    rw [BitVec.toNat_setWidth]
    omega
  simp only [firstFailedCheck] at h
  split at h
  next hpc => exact .inl ⟨hpc, (Option.some.inj h).symm⟩
  next hpc =>
    split at h
    next hl => exact .inr (.inl ⟨Nat.le_of_not_lt hpc, hl, (Option.some.inj h).symm⟩)
    next k hl =>
      refine .inr (.inr ⟨k, hl, ?_⟩)
      split_ifs at h with h₃ h₄ h₅ h₆ h₇ <;> cases h
      · exact .inr ⟨_, rfl, by decide, by decide⟩
      · exact .inr ⟨_, rfl, by decide, by decide⟩
      · exact .inr ⟨_, rfl, index _ h₅.2⟩
      · exact .inr ⟨_, rfl, index _ h₆.2⟩
      · exact .inl rfl

/-- A fault of R140 leaves a `fault_info` that fits its code (R18). -/
theorem faultInfoOk_of_firstFailedCheck {s : State} {e : Trap} (hpc : s.pc.toNat ≤ 258)
    (h : firstFailedCheck s = some e) : faultInfoOk e.code e.info = true := by
  rcases firstFailedCheck_cases h with ⟨hp, rfl⟩ | ⟨-, hl, rfl⟩ | ⟨-, -, rfl | ⟨info, rfl, hlo, hhi⟩⟩
  · simp only [Trap.code, Trap.info, faultInfoOk, Bool.and_eq_true, decide_eq_true_eq]
    omega
  · have hback : ((s.mem.read s.pc.toNat).setWidth 9).setWidth 8 = s.mem.read s.pc.toNat := by simp
    have hle : ((s.mem.read s.pc.toNat).setWidth 9).toNat ≤ 255 := by
      rw [BitVec.toNat_setWidth]
      omega
    simp only [Trap.code, Trap.info, faultInfoOk, hback, hl, hle, decide_true, Bool.and_self]
  · decide
  · simp only [Trap.code, Trap.info, faultInfoOk, Bool.and_eq_true, decide_eq_true_eq]
    omega

/-! ### The invariant -/

/-- A fault entry keeps the invariant when its info fits its code. -/
theorem State.Inv.raise {s : State} (hs : s.Inv) {e : Trap} (he : faultInfoOk e.code e.info = true) :
    (s.raise e).Inv := by
  obtain ⟨hpc, -, -, hmem⟩ := hs
  exact ⟨hpc, fun _ => rfl, he, hmem⟩

/-- Behind a completed instruction `pc` is at most 256 (R76). -/
theorem pc_le_of_completed {s t : State} {i : Instr} (hr : s.runningAt i) (hc : Completed i s t) :
    (advance (Config.opcodes.opcode i.mnemonic) t).pc.toNat ≤ 256 := by
  have hfit := fits_of_runningAt hr
  by_cases hi : i = .hlt
  · subst hi
    cases hc
    rw [advance_of_halted _ s.halt_halted, State.halt_pc]
    omega
  · cases hk : i.mnemonic.setsPc with
    | false =>
      rw [advance_pc_of_completed hr hc hi hk]
      omega
    | true =>
      rw [advance_setsPc (by rw [opcodes_valid.setsPc, hk])]
      rcases hc.pc_eq with ⟨-, -, hpc⟩ | ⟨-, hpc⟩
      · rw [hpc]
        omega
      · omega

/-- A completed instruction keeps the invariant. -/
theorem State.Inv.advance_completed {s t : State} {i : Instr} (hs : s.Inv) (hr : s.runningAt i)
    (hc : Completed i s t) : (advance (Config.opcodes.opcode i.mnemonic) t).Inv := by
  obtain ⟨-, hhalt, hinfo, hmem⟩ := hs
  obtain ⟨hf, hfi⟩ := hc.fault_eq
  refine ⟨(pc_le_of_completed hr hc).trans (by decide), fun h => ?_, ?_, ?_⟩
  · rw [advance_fault, hf] at h
    exact absurd ((hhalt h).symm.trans hr.1) (by decide)
  · rwa [advance_fault, advance_faultInfo, hf, hfi]
  · rw [advance_mem]
    exact hc.mem_wf hmem

/-- Settles O9: a halted machine stays as it is, a failed check of R140 is a fault entry with a fitting info,
and a completed instruction takes no fault and leaves `pc` at most 256. -/
theorem stepKeepsInvariant : Obligations.StepKeepsInvariant := by
  intro s t hs hst
  rcases step_next_cases hst with ⟨-, rfl⟩ | ⟨e, -, he, rfl⟩ | ⟨i, u, -, hr, hc, rfl⟩
  · exact hs
  · exact hs.raise (faultInfoOk_of_firstFailedCheck hs.1 he)
  · exact hs.advance_completed hr hc

end Sys2Proof.Machine
end

section
/-! Reset, load and the host's sessions (spec/70_reset_and_hazards.md R161 to R166). -/

namespace Sys2Proof.Machine

/-! ### A property kept by load and step is kept by every session -/

section
variable {P : State → Prop} (hstep : ∀ s t, P s → step s = .next t → P t)
include hstep

/-- A run under fuel keeps what every step keeps. -/
theorem runFor_keeps (n : Nat) {s : State} (hs : P s) :
    P (runFor n s) := by
  induction n generalizing s with
  | zero => exact hs
  | succ n ih =>
    unfold runFor
    split
    · exact hs
    · split
      next t hst => exact ih (hstep s t hs hst)
      all_goals exact hs

variable (hreset : P State.reset) (hload : ∀ image s t, P s → load image s = .next t → P t)
include hreset hload

/-- A transaction keeps what holds after reset and is kept by every load and every step. -/
theorem transact_keeps {c c' : Session} {t : Transaction} (hc : P c.core)
    (h : c.transact t = some c') : P c'.core := by
  cases t with
  | reset =>
    cases h
    exact hreset
  | load image =>
    obtain ⟨s, hl, rfl⟩ := transact_load h
    exact hload image c.core s hc hl
  | step =>
    simp only [Session.transact] at h
    split at h
    next s hst =>
      cases h
      exact hstep c.core s hc hst
    all_goals cases h
  | run fuel =>
    simp only [Session.transact] at h
    split at h
    · cases h
    · cases h
      exact runFor_keeps hstep (fuel + 1) hc

/-- So does a sequence of allowed transactions (R166). -/
theorem transactAll_keeps (ts : List Transaction) {c c' : Session} (hc : P c.core)
    (h : c.transactAll ts = some c') : P c'.core := by
  induction ts generalizing c with
  | nil =>
    cases h
    exact hc
  | cons t ts ih =>
    simp only [Session.transactAll] at h
    split at h
    next d hd => exact ih (transact_keeps hstep hreset hload hc hd) h
    next => cases h

end

/-! ### Load -/

/-- What a load that is not refused has done: the image fits, and it lies in memory from address 0 on. -/
theorem load_eq_next {image : List Byte} {s t : State} (h : load image s = .next t) :
    image.length ≤ 256 ∧ t = s.setMem (s.mem.writeList 0 image) := by
  unfold load at h
  split at h
  next hfit =>
    cases h
    exact ⟨hfit, rfl⟩
  next => cases h

theorem load_of_fits {image : List Byte} (h : image.length ≤ 256) (s : State) :
    load image s = .next (s.setMem (s.mem.writeList 0 image)) := if_pos h

theorem load_refused {image : List Byte} (h : 256 < image.length) (s : State) :
    load image s = .refused (.imageTooLong image.length) := if_neg (Nat.not_le.2 h)

/-- A cell of the image reads as the image's byte (R163). -/
theorem read_loaded {m : Memory} (hw : m.wf = true) {image : List Byte} (hfit : image.length ≤ 256) {a : Nat}
    (ha : a < image.length) : (m.writeList 0 image).read a = image[a] := by
  rw [Memory.read_writeList hw 0 image (by omega), dif_pos ⟨Nat.zero_le a, ha⟩]
  rfl

/-- A cell behind the image reads as before: "The load changes memory only" where the image lies (R163). -/
theorem read_loaded_behind {m : Memory} (hw : m.wf = true) {image : List Byte} (hfit : image.length ≤ 256)
    {a : Nat} (ha : image.length ≤ a) : (m.writeList 0 image).read a = m.read a := by
  rw [Memory.read_writeList hw 0 image (by omega), dif_neg fun h => Nat.not_lt.2 ha h.2]

/-- A load keeps the invariant: it writes memory alone, and in canonical form. -/
theorem State.Inv.load {image : List Byte} {s t : State} (hs : s.Inv) (h : load image s = .next t) : t.Inv := by
  obtain ⟨-, rfl⟩ := load_eq_next h
  obtain ⟨hpc, hhalt, hinfo, hmem⟩ := hs
  exact ⟨hpc, hhalt, hinfo, Memory.wf_writeList hmem 0 image⟩

/-! ### The statements -/

/-- Settles O6, field by field; memory lists nothing after reset (`reset_mem_read`). -/
theorem resetState : Obligations.ResetState :=
  ⟨by decide, by decide, rfl, fun a _ => reset_mem_read a, rfl, rfl, rfl, rfl⟩

/-- Settles O8: every conjunct is a fact about the one reset state. -/
theorem resetMeetsInvariant : Obligations.ResetMeetsInvariant := by
  unfold Obligations.ResetMeetsInvariant
  decide

/-- Settles O7: the image's cells read as the image, those behind it as reset left them, and a load touches
memory alone. -/
theorem loadGivesStartState : Obligations.LoadGivesStartState := by
  refine ⟨fun image hfit => ?fits, fun image hlong => load_refused hlong State.reset⟩
  case fits =>
    exact ⟨_, load_of_fits hfit State.reset, fun i hi => read_loaded reset_mem_wf hfit hi,
      fun a ha => (read_loaded_behind reset_mem_wf hfit ha).trans (reset_mem_read a), fun _ => rfl, rfl, rfl, rfl,
      rfl, rfl⟩

/-- Settles O10: the invariant holds after reset (O8), and every load and every step (O9) keeps it. -/
theorem sessionsMeetInvariant : Obligations.SessionsMeetInvariant := fun ts _ h =>
  transactAll_keeps (c := Session.fresh) stepKeepsInvariant resetMeetsInvariant (fun _ _ _ => State.Inv.load) ts
    resetMeetsInvariant h

end Sys2Proof.Machine
end

section
/-! The writers of memory and of the registers, the ALU's laws and its unsupported selector, and fault entry
(spec/20_memory.md R31, spec/10_state.md R12, spec/42_alu.md R105 and R106, spec/60_exceptions.md R135). -/

namespace Sys2Proof.Machine

/-- A completed instruction that changes a cell is a PUSH or a CALL, and the cell is the one below SP. -/
theorem Completed.of_mem_changed {i : Instr} {s t : State} (h : Completed i s t) (hw : s.mem.wf = true) {a : Nat}
    (ha : t.mem.read a ≠ s.mem.read a) : a = pushAddr s ∧ ∃ r, i = .push r ∨ i = .call r := by
  have pushed (v : Byte) (hv : (s.mem.write (s.sp - 1).toNat v).read a ≠ s.mem.read a) : a = pushAddr s := by
    rw [pushAddr_eq]
    by_contra hne
    exact hv (Memory.read_write_other hw hne v)
  cases h with
  | push _ h => exact ⟨pushed _ ha, _, .inl rfl⟩
  | call _ h => exact ⟨pushed _ ha, _, .inr rfl⟩
  | hlt | ldi | prn | mul | add | pop | ret => exact absurd rfl ha

/-- A step that changes a cell runs a PUSH or a CALL, and the cell is the one below SP. -/
theorem of_step_mem_changed {s t : State} (hw : s.mem.wf = true) (hst : step s = .next t) {a : Nat}
    (ha : t.mem.read a ≠ s.mem.read a) :
    a = pushAddr s ∧ ∃ r, s.runningAt (.push r) ∨ s.runningAt (.call r) := by
  rcases step_next_cases hst with ⟨-, rfl⟩ | ⟨e, -, -, rfl⟩ | ⟨i, u, -, hr, hc, rfl⟩
  · exact absurd rfl ha
  · exact absurd rfl ha
  · rw [advance_mem] at ha
    obtain ⟨haddr, r, rfl | rfl⟩ := hc.of_mem_changed hw ha
    · exact ⟨haddr, r, .inl hr⟩
    · exact ⟨haddr, r, .inr hr⟩

/-- Settles O12: `memWrite_ok` and `memWrite_error` with the 9 bits of the info value (log 5), the writer of a
step by `of_step_mem_changed`, and the loader by `read_loaded_behind`. -/
theorem memWriteAndItsWriters : Obligations.MemWriteAndItsWriters := by
  refine ⟨fun s addr v hw ha => ?stored, fun s addr v ha => ?bounds,
    fun s t a hw hst ha => of_step_mem_changed hw hst ha, fun image s t a hw hl ha => ?loader⟩
  case stored =>
    exact ⟨_, _, memWrite_ok s ha v, wrap8_toInt_mod v, Memory.read_write_same hw addr _,
      fun a hne => Memory.read_write_other hw hne _, fun _ _ => rfl, rfl, rfl, rfl, rfl, rfl⟩
  case bounds =>
    exact ⟨_, memWrite_error s ha v, fun h9 => (BitVec.toNat_ofNat addr 9).trans (Nat.mod_eq_of_lt h9)⟩
  case loader =>
    obtain ⟨hfit, rfl⟩ := load_eq_next hl
    by_contra hbehind
    exact ha (read_loaded_behind hw hfit (Nat.le_of_not_lt hbehind))

/-- Settles O13, from `wrap8_toInt_mod`, the register rules and the two answers of `regIndex`. -/
theorem registerWriteWraps : Obligations.RegisterWriteWraps := by
  refine ⟨fun s i v => ⟨?_, fun j hj => s.reg_setReg_other (List.ne_of_not_mem_cons hj) v, fun _ => rfl, rfl, rfl,
    rfl, rfl, rfl⟩, fun r => ⟨regIndex_ok, fun h => ⟨_, regIndex_error h, zext9_toNat r⟩⟩⟩
  rw [State.reg_setReg_same]
  exact wrap8_toInt_mod v

/-- Settles O15: on bytes the ALU is bit vector arithmetic, a commutative ring (R106). -/
theorem aluLaws : Obligations.AluLaws := by
  intro p q r
  simp only [alu_add, alu_mul, alu_sub, checked_bind_ok]
  exact ⟨congrArg _ (BitVec.add_comm p q), congrArg _ (BitVec.mul_comm p q), congrArg _ (BitVec.add_assoc p q r),
    congrArg _ (BitVec.mul_assoc p q r), congrArg _ BitVec.mul_add, congrArg _ (BitVec.add_sub_cancel p q),
    congrArg _ (BitVec.add_zero p), congrArg _ (BitVec.mul_one p), congrArg _ BitVec.mul_zero⟩

/-- The first failed check of R140 is never the unsupported selector (R140: check 8 is unreachable). -/
theorem code_ne_unsupported_of_firstFailedCheck {s : State} {e : Trap} (h : firstFailedCheck s = some e) :
    e.code ≠ .unsupportedAluOp := by
  rcases firstFailedCheck_cases h with ⟨-, rfl⟩ | ⟨-, -, rfl⟩ | ⟨-, -, rfl | ⟨-, rfl, -⟩⟩ <;> simp [Trap.code]

/-- Settles O17: with valid indices the wrapper hands on the ALU's fault; a step's fault is a failed check of
R140, and a completed instruction takes none. -/
theorem unsupportedSelectorFaults : Obligations.UnsupportedSelectorFaults := by
  refine ⟨fun a b s ha hb => ?taken, fun s t hst hs => ?never⟩
  case taken =>
    have happly : aluApply .other a b s = .error .unsupportedOperation :=
      aluApply_ok (Nat.lt_succ_of_le ha) (Nat.lt_succ_of_le hb) .other s
    rw [happly, attempt_error]
    exact ⟨_, rfl, rfl, rfl, rfl, fun _ _ => rfl, fun _ => rfl, rfl, rfl⟩
  case never =>
    rcases step_next_cases hst with ⟨-, rfl⟩ | ⟨e, -, he, rfl⟩ | ⟨i, u, -, -, hc, rfl⟩
    · exact hs
    · exact code_ne_unsupported_of_firstFailedCheck he
    · rwa [advance_fault, hc.fault_eq.1]

/-- Settles O27: the frame holds of every trap, and the code and the info are those of the trap's own case. -/
theorem faultEntry : Obligations.FaultEntry := by
  refine fun s t => ⟨rfl, fun _ _ => rfl, fun _ => rfl, rfl, rfl, ?_⟩
  cases t with
  | illegalOpcode ir => exact ⟨rfl, zext9_toNat ir⟩
  | stackUnderflow sp => exact ⟨rfl, zext9_toNat sp⟩
  | boundsFault info => exact ⟨rfl, rfl⟩
  | unsupportedOperation => exact ⟨rfl, rfl⟩

end Sys2Proof.Machine
end

section
/-! What each handler does and its frame (spec/40_execution_loop.md R78, spec/41_load_and_print.md,
spec/42_alu.md, spec/43_stack.md, spec/44_subroutine.md), and the step that runs it (R77). -/

namespace Sys2Proof.Machine

/-! ### The register of an operand and the stack pointer -/

/-- An operand names R7 exactly when its byte is 7. -/
theorem operand_eq_sp_iff {r : RegOperand} (h : r.toNat < 8) : (⟨r.toNat, h⟩ : Fin 8) = 7 ↔ r.toNat = 7 :=
  Fin.ext_iff

/-- PUSH and CALL read their operand after the decrement, so R7 is the new SP (D17). -/
theorem decSp_reg_operand {r : RegOperand} (h : r.toNat < 8) (s : State) :
    s.decSp.reg ⟨r.toNat, h⟩ = if r.toNat = 7 then s.decSp.sp else s.reg ⟨r.toNat, h⟩ := by
  simp only [State.decSp_reg, State.decSp_sp, operand_eq_sp_iff]

/-- The decrement of SP as the mathematical modulus (R110, R120). -/
theorem decSp_sp_toInt (s : State) : (s.decSp.sp.toNat : Int) = ((s.sp.toNat : Int) - 1) % 256 := by
  rw [State.sp, State.decSp, State.reg_setReg_same]
  exact wrap8_toInt_mod _

/-- An increment of a byte as the natural modulus (R111, R121). -/
theorem toNat_add_one (v : Byte) : (v + 1).toNat = (v.toNat + 1) % 256 := BitVec.toNat_add v 1

/-- A register write elsewhere leaves SP. -/
theorem sp_setReg_other {i : Fin 8} (h : i ≠ 7) (s : State) (v : Int) : (s.setReg i v).sp = s.sp :=
  s.reg_setReg_other h.symm v

/-! ### The store of PUSH and CALL -/

/-- The pushed value lies at the push address. -/
theorem read_pushed {s : State} (hw : s.mem.wf = true) (v : Byte) : (s.pushed v).mem.read (pushAddr s) = v := by
  rw [pushAddr_eq, State.pushed_mem, Memory.read_write_same hw]

/-- A push leaves every cell but the one at the push address. -/
theorem sameMemoryBut_pushed {s : State} (hw : s.mem.wf = true) (v : Byte) :
    SameMemoryBut (pushAddr s) s (s.pushed v) := fun a ha => by
  rw [pushAddr_eq] at ha
  exact Memory.read_write_other hw ha v

/-- A push leaves every register but SP. -/
theorem sameRegsBut_pushed (s : State) (v : Byte) : SameRegsBut [7] s (s.pushed v) := fun _ hj =>
  s.decSp_reg_other (List.ne_of_not_mem_cons hj)

/-- A write to one register leaves the others. -/
theorem sameRegsBut_setReg (s : State) (i : Fin 8) (v : Int) : SameRegsBut [i] s (s.setReg i v) := fun _ hj =>
  s.reg_setReg_other (List.ne_of_not_mem_cons hj) v

/-! ### The handlers -/

/-- Settles O18: HLT is `execHlt_eq`. -/
theorem hltCompletes : Obligations.HltCompletes := fun s =>
  ⟨_, execHlt_eq s, rfl, rfl, rfl, fun _ _ => rfl, fun _ => rfl, rfl, rfl⟩

/-- Settles O19: LDI is one register write. -/
theorem ldiCompletes : Obligations.LdiCompletes := fun s _ v h =>
  ⟨_, execLdi_ok h v s, s.reg_setReg_byte _ v, sameRegsBut_setReg s _ _, fun _ => rfl, ⟨rfl, rfl, rfl⟩, rfl, rfl⟩

/-- Settles O20: PRN is one append to `out`, which never blocks (D13). -/
theorem prnCompletes : Obligations.PrnCompletes := fun s _ h =>
  ⟨_, execPrn_ok h s, rfl, fun _ _ => rfl, fun _ => rfl, ⟨rfl, rfl, rfl⟩, rfl⟩

/-- Settles O21: MUL and ADD are one register write each, of the product and the sum of bytes. -/
theorem aluInstructionsComplete : Obligations.AluInstructionsComplete := by
  refine fun s a b ha hb => ⟨?mul, ?add⟩
  case mul =>
    refine ⟨_, execMul_ok ha hb s, ?_, sameRegsBut_setReg s _ _, fun _ => rfl, ⟨rfl, rfl, rfl⟩, rfl, rfl⟩
    rw [State.reg_setReg_byte]
    exact BitVec.toNat_mul ..
  case add =>
    refine ⟨_, execAdd_ok ha hb s, ?_, sameRegsBut_setReg s _ _, fun _ => rfl, ⟨rfl, rfl, rfl⟩, rfl, rfl⟩
    rw [State.reg_setReg_byte]
    exact BitVec.toNat_add ..

/-- Settles O22: PUSH is the push of the operand's register, read after the decrement. -/
theorem pushCompletes : Obligations.PushCompletes := fun s _ h hw =>
  ⟨_, execPush_ok h s, decSp_sp_toInt s, rfl, (read_pushed hw _).trans (decSp_reg_operand h s),
    sameMemoryBut_pushed hw _, sameRegsBut_pushed s _, ⟨rfl, rfl, rfl⟩, rfl, rfl⟩

/-- Settles O23: away from the sentinel POP is a register write and then the increment of SP, so that `POP R7`
increments what it loaded (D17); on the sentinel it is `execPop_underflow`. -/
theorem popCompletes : Obligations.PopCompletes := by
  refine ⟨fun s r h hs => ?popped, fun s r h hs => execPop_underflow h hs⟩
  refine ⟨_, execPop_ok h hs, fun h7 => ⟨?value, ?sp⟩, fun h7 => ?spR7, fun _ => rfl, fun j hj => ?frame,
    ⟨rfl, rfl, rfl⟩, rfl, rfl⟩
  case value =>
    rw [State.incSp_reg_other _ (mt (operand_eq_sp_iff h).1 h7), State.reg_setReg_byte]
  case sp =>
    rw [State.incSp_sp, sp_setReg_other (mt (operand_eq_sp_iff h).1 h7)]
    exact toNat_add_one s.sp
  case spR7 =>
    rw [State.incSp_sp, (operand_eq_sp_iff h).2 h7, State.sp, Config.spIndex, State.reg_setReg_byte]
    exact toNat_add_one _
  case frame =>
    rw [State.incSp_reg_other _ (List.ne_of_not_mem_cons (List.not_mem_of_not_mem_cons hj)),
      State.reg_setReg_other _ (List.ne_of_not_mem_cons hj)]

/-- Settles O24: CALL is the push of the truncated return address (R120) and a jump to the operand's register,
read after the decrement. -/
theorem callCompletes : Obligations.CallCompletes := by
  intro s r h hw
  refine ⟨_, execCall_ok h s, decSp_sp_toInt s, rfl, ?returnAddress, ?target, sameMemoryBut_pushed hw _,
    sameRegsBut_pushed s (BitVec.ofNat 8 (s.pc.toNat + 2)), ⟨rfl, rfl, rfl⟩, rfl⟩
  case returnAddress =>
    rw [State.setPc_mem, read_pushed hw]
    exact BitVec.toNat_ofNat ..
  case target =>
    rw [State.setPc_pc, zext9_toNat, decSp_reg_operand, apply_ite BitVec.toNat]
    rfl

/-- Settles O25: RET is a jump to the byte at SP and the increment of SP, with no test (D12). -/
theorem retCompletes : Obligations.RetCompletes := fun s =>
  ⟨_, execRet_eq s, zext9_toNat _, (congrArg BitVec.toNat s.incSp_sp).trans (toNat_add_one s.sp), fun _ => rfl,
    fun _ hj => s.incSp_reg_other (List.ne_of_not_mem_cons hj), ⟨rfl, rfl, rfl⟩, rfl⟩

/-- Settles O26: each is the handler's fault of its first invalid operand (D9: `operand_a` before
`operand_b`). -/
theorem badRegisterOperandFaults : Obligations.BadRegisterOperandFaults := by
  intro s r q v h
  have first {i : Instr} {rest : List RegOperand} (hi : i.regOperands = r :: rest) :
      exec i s = .next (s.raise (.boundsFault (r.setWidth 9))) := (Trapped.operandA hi h).exec_eq
  have second {i : Instr} (hi : i.regOperands = [q, r]) (hq : q.toNat ≤ 7) :
      exec i s = .next (s.raise (.boundsFault (r.setWidth 9))) :=
    (Trapped.operandB hi (Nat.lt_succ_of_le hq) h).exec_eq
  exact ⟨first rfl, first rfl, first rfl, first rfl, first rfl, first rfl, first rfl,
    fun hq => ⟨second rfl hq, second rfl hq⟩⟩

/-! ### The step -/

/-- Every instruction answers a next state (log 2). -/
theorem exec_answers (i : Instr) (s : State) : ∃ t, exec i s = .next t := by
  rcases exec_cases i s with ⟨t, he, -⟩ | ⟨e, he, -⟩
  · exact ⟨t, he⟩
  · exact ⟨_, he⟩

/-- Settles O28: the fetch finds the instruction whose bytes lie at `pc`, and its handler answers a next
state. -/
theorem stepRunsDecodedInstruction : Obligations.StepRunsDecodedInstruction := by
  refine ⟨fun s i hr => ?_, fun m hm s i hh hc => ?_⟩
  · obtain ⟨t, he⟩ := exec_answers i s
    rw [he]
    exact step_runningAt hr he
  · obtain ⟨t, he⟩ := exec_answers i s
    rw [he]
    exact stepWith_fetchOk hh (fetchWith_codeAt hm hc) he

end Sys2Proof.Machine
end

section
/-! The whole steps of PRN, PUSH, POP, CALL and RET, and the round trips (spec/41_load_and_print.md R91 and R92,
spec/43_stack.md R110 to R112, spec/44_subroutine.md R120 to R122). -/

namespace Sys2Proof.Machine

/-! ### From a handler to its step -/

/-- The advance changes `pc` at most. -/
theorem advance_eq_setPc (ir : Byte) (s : State) : advance ir s = s.setPc (advance ir s).pc := by
  unfold advance
  split <;> rfl

/-- The step of a handler that left `pc` and `halted` alone is that handler's state with `pc` behind the
instruction, so that every other fact about the handler is one about the step. -/
theorem step_of_exec_setPc {s t : State} {i : Instr} (hr : s.runningAt i) (he : exec i s = .next t)
    (hk : i.mnemonic.setsPc = false) (ht : t.halted = s.halted) (hpc : t.pc = s.pc) :
    ∃ p : PcWord, step s = .next (t.setPc p) ∧ p.toNat = s.pc.toNat + 1 + i.mnemonic.nOps := by
  obtain ⟨u, hst, -, -, -, -, hu⟩ := step_of_exec_advanced hr he hk ht hpc
  obtain rfl := step_unique hst (step_runningAt hr he)
  exact ⟨_, hst.trans (congrArg _ (advance_eq_setPc ..)), hu⟩

/-- A row with one operand byte has no room for it at 255 (R33, D3). -/
theorem step_oneOperandPastTop {s : State} {k : Mnemonic} (hk : k.nOps = 1) (hh : s.halted = false)
    (hpc : s.pc.toNat = 255) (hb : s.mem.read 255 = Config.opcodes.opcode k) :
    step s = .next (s.raise (.boundsFault 256)) :=
  step_operandPastTop hh (by omega) (by rw [hpc, hb]) (by omega)

/-! ### The whole steps -/

/-- Settles O33: the handler by O20, an index above 7 by its fault, and at 255 the operand does not fit. -/
theorem stepPrn : Obligations.StepPrn := by
  refine ⟨fun s r hr => ⟨fun h => ?printed, fun h => step_of_trapped hr (.operandA rfl h)⟩,
    fun s => step_oneOperandPastTop (k := .prn) rfl⟩
  case printed =>
    obtain ⟨t, he, hout, hregs, hmem, hrun, hpc⟩ := prnCompletes s r h
    obtain ⟨p, hst, hp⟩ := step_of_exec_setPc hr he rfl hrun.1 hpc
    exact ⟨t.setPc p, hst, hout, hregs, hmem, hrun, hp⟩

/-- Settles O36: the handler by O22, an index above 7 by its fault, and at 255 the operand does not fit. -/
theorem stepPush : Obligations.StepPush := by
  refine ⟨fun s r hw hr => ⟨fun h => ?pushed, fun h => step_of_trapped hr (.operandA rfl h)⟩,
    fun s => step_oneOperandPastTop (k := .push) rfl⟩
  case pushed =>
    obtain ⟨t, he, hsp, haddr, hval, hmem, hregs, hrun, hout, hpc⟩ := pushCompletes s r h hw
    obtain ⟨p, hst, hp⟩ := step_of_exec_setPc hr he rfl hrun.1 hpc
    exact ⟨t.setPc p, hst, hsp, haddr, hval, hmem, hregs, hout, hrun, hp⟩

/-- Settles O37: the handler by O23, its two faults with the index before the sentinel (D9), and at 255 the
operand does not fit. -/
theorem stepPop : Obligations.StepPop := by
  refine ⟨fun s r hr => ⟨fun h hs => ?popped, fun h hs => ?underflow, fun h => ?badIndex⟩,
    fun s => step_oneOperandPastTop (k := .pop) rfl⟩
  case popped =>
    obtain ⟨t, he, hval, hr7, hmem, hregs, hrun, hout, hpc⟩ := popCompletes.1 s r h hs
    obtain ⟨p, hst, hp⟩ := step_of_exec_setPc hr he rfl hrun.1 hpc
    exact ⟨t.setPc p, hst, hval, hr7, hmem, hregs, hout, hrun, hp⟩
  case underflow => exact step_of_trapped hr (.underflow (Nat.lt_succ_of_le h) hs)
  case badIndex => exact step_of_trapped hr (.operandA rfl h)

/-- Settles O38: the handler by O24, whose `pc` the loop leaves (R76), an index above 7 by its fault, and at
255 the operand does not fit. The instruction is the one fetched, whatever the push overwrites (D11). -/
theorem stepCall : Obligations.StepCall := by
  refine ⟨fun s r hw hr => ⟨fun h => ?called, fun h => step_of_trapped hr (.operandA rfl h)⟩,
    fun s => step_oneOperandPastTop (k := .call) rfl⟩
  case called =>
    obtain ⟨t, he, hsp, haddr, hret, hpc, hmem, hregs, hrun, hout⟩ := callCompletes s r h hw
    exact ⟨t, step_of_exec_setsPc hr he rfl, hsp, haddr, hret, hpc, hmem, hregs, hout, hrun⟩

/-- Settles O39: the one byte of RET is the whole instruction, at 255 too (D3), its handler is O25, and the loop
leaves the `pc` it wrote (R76). -/
theorem stepRet : Obligations.StepRet := by
  intro s hh hpc hb
  have hr : s.runningAt .ret := ⟨hh, codeAt_single hpc hb⟩
  obtain ⟨t, he, htarget, hsp, hmem, hregs, hrun, hout⟩ := retCompletes s
  exact ⟨t, step_of_exec_setsPc hr he rfl, htarget, hsp, hmem, hregs, hout, hrun⟩

/-! ### The round trips -/

/-- Nothing changed, and then nothing changed, in the run state. -/
theorem sameRunState_trans {s u t : State} (hu : SameRunState s u) (ht : SameRunState u t) : SameRunState s t :=
  ⟨ht.1.trans hu.1, ht.2.1.trans hu.2.1, ht.2.2.trans hu.2.2⟩

/-- The code behind the instruction that has run is what runs next, if the step left it in memory. -/
theorem runningAt_next {s u : State} {i j : Instr} (hh : s.halted = false) (hc : s.codeAt (encode i ++ encode j))
    (hrun : SameRunState s u) (hpc : u.pc.toNat = s.pc.toNat + (encode i).length)
    (hm : ∀ k, k < (encode j).length → u.mem.read (u.pc.toNat + k) = s.mem.read (u.pc.toNat + k)) :
    u.runningAt j :=
  ⟨hrun.1.trans hh, codeAt_drop hc hpc hm⟩

/-- Settles O40, by O32 and O33: PRN finds in `x[r]` the immediate LDI left there. -/
theorem ldiThenPrn : Obligations.LdiThenPrn := by
  intro s r v h hh hc
  obtain ⟨u, hsu, hval, hregs, hmem, hout, hrun, hpc⟩ := (stepLdi.1 s r v ⟨hh, codeAt_append hc⟩).1 h
  have hr : u.runningAt (.prn r) := runningAt_next hh hc hrun hpc fun _ _ => hmem _
  obtain ⟨t, hut, htout, htregs, htmem, htrun, htpc⟩ := (stepPrn.1 u r hr).1 h
  refine ⟨u, t, hsu, hut, ?_, ?_, ?_, fun j hj => ?_, fun a => (htmem a).trans (hmem a), sameRunState_trans hrun htrun⟩
  · rw [htout, hout, hval]
  · rw [htregs _ List.not_mem_nil, hval]
  · rw [htpc, hpc]
  · rw [htregs j List.not_mem_nil, hregs j hj]

/-- SP at the push address is one below. -/
theorem sp_of_pushAddr {s u : State} (h : pushAddr s = u.sp.toNat) : u.sp = s.sp - 1 :=
  BitVec.eq_of_toNat_eq (h.symm.trans (pushAddr_eq s))

/-- The increment of POP and RET undoes the decrement of PUSH and CALL, at every SP. -/
theorem sp_restored {s u t : State} (hu : u.sp = s.sp - 1) (ht : t.sp.toNat = (u.sp.toNat + 1) % 256) :
    t.sp = s.sp := by
  rw [BitVec.eq_of_toNat_eq (ht.trans (toNat_add_one u.sp).symm), hu, BitVec.sub_add_cancel]

/-- The step of a PUSH in front of a POP that it does not overwrite: the POP runs next, with SP at the cell that
holds the pushed register. -/
theorem step_push_before_pop {s : State} {r d : RegOperand} (h : r.toNat < 7) (hw : s.mem.wf = true)
    (hh : s.halted = false) (hc : s.codeAt (encode (.push r) ++ encode (.pop d)))
    (hout : ∀ k, k < 4 → pushAddr s ≠ s.pc.toNat + k) :
    ∃ u, step s = .next u ∧ u.sp = s.sp - 1 ∧ u.mem.read u.sp.toNat = s.reg ⟨r.toNat, by omega⟩ ∧
      u.runningAt (.pop d) ∧ SameMemoryBut (pushAddr s) s u ∧ SameRegsBut [7] s u ∧ u.out = s.out ∧
      SameRunState s u ∧ u.pc.toNat = s.pc.toNat + 2 := by
  obtain ⟨u, hst, -, haddr, hval, hmem, hregs, hout', hrun, hpc⟩ :=
    (stepPush.1 s r hw ⟨hh, codeAt_append hc⟩).1 (Nat.lt_succ_of_lt h)
  have hr : u.runningAt (.pop d) := runningAt_next hh hc hrun hpc fun k hk => hmem _ fun heq => by
    have hk2 : k < 2 := hk
    exact hout (2 + k) (by omega) (by omega)
  rw [haddr, if_neg (by omega)] at hval
  exact ⟨u, hst, sp_of_pushAddr haddr, hval, hr, hmem, hregs, hout', hrun, hpc⟩

/-- Settles O41, by O36 and O37: POP finds at SP the cell PUSH wrote, unless the push left SP on the sentinel
(D7). -/
theorem pushThenPop : Obligations.PushThenPop := by
  intro s r d hr7 hd7 hw hh hc hout
  obtain ⟨u, hsu, husp, hval, hr, hmem, hregs, huout, hrun, hpc⟩ := step_push_before_pop hr7 hw hh hc hout
  refine ⟨fun hs => ?carried, fun hs => ⟨u, hsu, ?underflow⟩⟩
  case carried =>
    have hus : u.sp ≠ 0xF4 := by
      rw [husp]
      bv_omega
    obtain ⟨t, hut, hpop, -, htmem, htregs, htout, htrun, htpc⟩ :=
      (stepPop.1 u d hr).1 (Nat.lt_succ_of_lt hd7) hus
    obtain ⟨hreg, htsp⟩ := hpop (by omega)
    have hsp : t.sp = s.sp := sp_restored husp htsp
    refine ⟨u, t, hsu, hut, hreg.trans hval, hsp, ?cell, htpc.trans (by rw [hpc]), fun j hj => ?frame,
      fun a ha => (htmem a).trans (hmem a ha), htout.trans huout, sameRunState_trans hrun htrun⟩
    case cell => rw [htmem, pushAddr_eq, ← husp, hval]
    case frame =>
      by_cases h7 : j = 7
      · rw [h7]
        exact hsp
      · rw [htregs j (by simpa [h7] using hj), hregs j (by simpa using h7)]
  case underflow =>
    refine (stepPop.1 u d hr).2.1 (by omega) ?_
    rw [husp, hs]
    rfl

/-- Settles O42, by O38 and O39: RET finds at SP the return address CALL stored, truncated to a byte (log 12). -/
theorem callThenRet : Obligations.CallThenRet := by
  intro s r h hw hr
  obtain ⟨u, hsu, -, haddr, hret, -⟩ := (stepCall.1 s r hw hr).1 h
  refine ⟨u, hsu, fun w hwr hwsp hwread => ?_⟩
  obtain ⟨hwpc, hwbyte⟩ := read_of_codeAt hwr.2
  obtain ⟨t, hwt, htpc, htsp, -⟩ := stepRet w hwr.1 hwpc hwbyte
  have hpc : s.pc.toNat + 1 ≤ 255 := fits_of_runningAt hr
  refine ⟨t, hwt, sp_restored (hwsp.trans (sp_of_pushAddr haddr)) htsp, ?_⟩
  rw [htpc, hwsp, ← haddr, hwread, hret]
  split <;> omega

end Sys2Proof.Machine
end

section
/-! Rules of the whole machine: every step answers, faults are precise and in order, how a run ends, which
registers an instruction reads and writes, and what no instruction reads (spec/60_exceptions.md R136 and R140,
spec/40_execution_loop.md R80, spec/10_state.md R13, R18 and R20). -/

namespace Sys2Proof.Machine

/-! ### Answers, precision and priority of faults -/

/-- The first failed check of R140 is the fault taken. -/
theorem step_of_firstFailedCheck {s : State} {e : Trap} (hh : s.halted = false) (h : firstFailedCheck s = some e) :
    step s = .next (s.raise e) := by
  rcases step_checked hh with ⟨e', he', hs⟩ | ⟨_, _, hn, -⟩
  · rwa [Option.some.inj (h.symm.trans he')]
  · cases h.symm.trans hn

/-- Settles O44: a halted machine answers itself (D16), a running one a fault entry or the advanced state. -/
theorem stepAlwaysAnswers : Obligations.StepAlwaysAnswers := by
  intro s
  cases hh : s.halted with
  | true => exact ⟨s, step_halted hh⟩
  | false =>
    rcases step_checked hh with ⟨e, -, hs⟩ | ⟨i, u, -, -, -, hs⟩
    · exact ⟨_, hs⟩
    · exact ⟨_, hs⟩

/-- Settles O45, which is `eq_raise_of_step_fault`. -/
theorem faultsArePrecise : Obligations.FaultsArePrecise := fun _ _ => eq_raise_of_step_fault

/-- Settles O46: a running machine takes the first failed check, or completes an instruction, which leaves the
fault registers alone and halts only as HLT. -/
theorem faultPriority : Obligations.FaultPriority := by
  intro s hh
  rcases step_checked hh with ⟨e, he, hs⟩ | ⟨i, u, hn, hr, hc, hs⟩
  · rw [he]
    exact hs
  · rw [hn]
    obtain ⟨hf, hfi⟩ := hc.fault_eq
    exact ⟨_, hs, (advance_fault ..).trans hf, (advance_faultInfo ..).trans hfi,
      by rw [advance_halted, halted_of_completed hr hc]⟩

/-! ### The three ends of a run (R80) -/

theorem stopKind_normalHalt {s : State} : s.stopKind = some .normalHalt ↔ s.halted = true ∧ s.fault = .none := by
  cases hh : s.halted with
  | false => simp [State.stopKind, hh]
  | true => cases hf : s.fault <;> simp [State.stopKind, hh, hf]

theorem stopKind_unknownOpcode {s : State} :
    s.stopKind = some .unknownOpcode ↔ s.halted = true ∧ s.fault = .illegalOpcode := by
  cases hh : s.halted with
  | false => simp [State.stopKind, hh]
  | true => cases hf : s.fault <;> simp [State.stopKind, hh, hf]

theorem stopKind_faultStop {s : State} :
    s.stopKind = some .faultStop ↔ s.halted = true ∧ s.fault ≠ .none ∧ s.fault ≠ .illegalOpcode := by
  cases hh : s.halted with
  | false => simp [State.stopKind, hh]
  | true => cases hf : s.fault <;> simp [State.stopKind, hh, hf]

/-- Only the dispatch miss has the code of an unknown opcode. -/
theorem Trap.code_eq_illegalOpcode {e : Trap} : e.code = .illegalOpcode ↔ ∃ ir, e = .illegalOpcode ir := by
  cases e <;> simp [Trap.code]

/-- R140 comes to an unknown opcode exactly when `pc` has a cell and its byte has no row. -/
theorem firstFailedCheck_illegalOpcode {s : State} {e : Trap} (h : firstFailedCheck s = some e) :
    (∃ ir, e = .illegalOpcode ir) ↔
      s.pc.toNat ≤ 255 ∧ ∀ k, Config.opcodes.opcode k ≠ s.mem.read s.pc.toNat := by
  rw [← OpcodeMap.lookup_none]
  constructor
  · rintro ⟨ir, rfl⟩
    rcases firstFailedCheck_cases h with ⟨-, he⟩ | ⟨hpc, hl, -⟩ | ⟨_, -, he | ⟨_, he, -⟩⟩
    · cases he
    · exact ⟨hpc, hl⟩
    · cases he
    · cases he
  · rintro ⟨hpc, hl⟩
    exact ⟨_, Option.some.inj (h.symm.trans (firstFailedCheck_unknown hpc hl))⟩

/-- No check fails in front of HLT. -/
theorem firstFailedCheck_hlt {s : State} (h : s.runningAt .hlt) : firstFailedCheck s = none :=
  (Completed.hlt s).firstFailedCheck_eq h

/-- Settles O47: a fault entry is a stop of the kind its code says, and a completed instruction stops the
machine only as HLT, with `fault` still `NONE`. -/
theorem stopKinds : Obligations.StopKinds := by
  intro s t hh hf hst
  rw [stopKind_normalHalt, stopKind_unknownOpcode, stopKind_faultStop]
  rcases step_next_cases hst with ⟨h, -⟩ | ⟨e, -, he, rfl⟩ | ⟨i, u, hn, hr, hc, rfl⟩
  · cases hh.symm.trans h
  · rw [← firstFailedCheck_illegalOpcode he, ← Trap.code_eq_illegalOpcode]
    refine ⟨iff_of_false (fun h => e.code_ne_none h.2) fun h => ?_, ⟨And.right, .intro rfl⟩, ?_⟩
    · cases he.symm.trans (firstFailedCheck_hlt h)
    · simp [he, e.code_ne_none, Trap.code_eq_illegalOpcode]
  · have hfault : u.fault = .none := hc.fault_eq.1.trans hf
    have hknown : ¬∀ k, Config.opcodes.opcode k ≠ s.mem.read s.pc.toNat := fun h =>
      h i.mnemonic (read_of_codeAt hr.2).2.symm
    simp [hfault, hknown, hn, halted_of_completed hr hc]

/-! ### The registers read and written (R13) -/

/-- The state with another register file. -/
def State.withRegs (s : State) (regs' : Vector Byte 8) : State := { s with regs := regs' }

/-- A valid operand names its one register. -/
theorem mem_namedReg {r : RegOperand} (h : r.toNat < 8) {j : Fin 8} : j ∈ namedReg r ↔ j = ⟨r.toNat, h⟩ := by
  rw [namedReg, dif_pos h, List.mem_singleton]

/-- A completed instruction changes no register outside its "written" column. -/
theorem Completed.sameRegsBut_written {i : Instr} {s t : State} (h : Completed i s t) :
    SameRegsBut (writtenRegs i) s t := by
  intro j hj
  cases h with
  | hlt | prn => rfl
  | ldi _ h | mul _ h | add _ h => exact s.reg_setReg_other (mt (mem_namedReg h).2 hj) _
  | push | call => exact s.decSp_reg_other (List.ne_of_not_mem_cons hj)
  | pop _ h =>
    have hr := mt (mem_namedReg h).2 (List.not_mem_of_not_mem_cons hj)
    rw [State.incSp_reg_other _ (List.ne_of_not_mem_cons hj), State.reg_setReg_other _ hr]
  | ret => exact s.incSp_reg_other (List.ne_of_not_mem_cons hj)

/-- The register an instruction writes reads as the byte written, whatever the register file was. -/
theorem reg_setReg_named {r : RegOperand} (h : r.toNat < 8) (s s' : State) (v : Byte) {j : Fin 8}
    (hj : j ∈ namedReg r) :
    (s'.setReg ⟨r.toNat, h⟩ v.toNat).reg j = (s.setReg ⟨r.toNat, h⟩ v.toNat).reg j := by
  rw [(mem_namedReg h).1 hj, State.reg_setReg_byte, State.reg_setReg_byte]

/-- Registers that read the same do so after one write to both files. -/
theorem reg_setReg_congr {s s' : State} {j : Fin 8} (hj : s'.reg j = s.reg j) (i : Fin 8) (v : Int) :
    (s'.setReg i v).reg j = (s.setReg i v).reg j := by
  rw [State.reg_setReg, State.reg_setReg, hj]

/-- Registers that read the same do so after the decrement of the same SP. -/
theorem decSp_reg_congr {s s' : State} (hsp : s'.sp = s.sp) {j : Fin 8} (hj : s'.reg j = s.reg j) :
    s'.decSp.reg j = s.decSp.reg j := by
  rw [State.decSp_reg, State.decSp_reg, hsp, hj]

/-- Registers that read the same do so after the increment of the same SP. -/
theorem incSp_reg_congr {s s' : State} (hsp : s'.sp = s.sp) {j : Fin 8} (hj : s'.reg j = s.reg j) :
    s'.incSp.reg j = s.incSp.reg j := by
  rw [State.incSp_reg, State.incSp_reg, hsp, hj]

/-- A completed instruction completes in the same way with another register file that agrees on its "read"
column. -/
theorem Completed.withRegs {i : Instr} {s t : State} (h : Completed i s t) {regs' : Vector Byte 8}
    (hread : ∀ j, j ∈ readRegs i → (s.withRegs regs').reg j = s.reg j) :
    ∃ t', Completed i (s.withRegs regs') t' ∧ t'.pc = t.pc ∧ t'.mem = t.mem ∧ t'.out = t.out ∧
      SameRunState t t' ∧ ∀ j, j ∈ writtenRegs i → t'.reg j = t.reg j := by
  have push (v : Byte) (hsp : (s.withRegs regs').sp = s.sp) :
      ((s.withRegs regs').pushed v).mem = (s.pushed v).mem ∧
        ∀ j, j ∈ [7] → ((s.withRegs regs').pushed v).reg j = (s.pushed v).reg j := by
    refine ⟨by rw [State.pushed_mem, State.pushed_mem, hsp]; rfl, fun j hj => ?_⟩
    rw [List.mem_singleton.1 hj]
    exact decSp_reg_congr hsp hsp
  cases h with
  | hlt => exact ⟨_, .hlt _, rfl, rfl, rfl, ⟨rfl, rfl, rfl⟩, nofun⟩
  | ldi _ h v =>
    exact ⟨_, .ldi _ h v, rfl, rfl, rfl, ⟨rfl, rfl, rfl⟩, fun _ => reg_setReg_named h s _ v⟩
  | prn _ h =>
    have hr := hread _ ((mem_namedReg h).2 rfl)
    exact ⟨_, .prn _ h, rfl, rfl, congrArg (s.out ++ [·]) hr, ⟨rfl, rfl, rfl⟩, nofun⟩
  | mul _ ha hb =>
    have hra := hread _ (List.mem_append_left _ ((mem_namedReg ha).2 rfl))
    have hrb := hread _ (List.mem_append_right _ ((mem_namedReg hb).2 rfl))
    refine ⟨_, .mul _ ha hb, rfl, rfl, rfl, ⟨rfl, rfl, rfl⟩, ?_⟩
    rw [hra, hrb]
    exact fun _ => reg_setReg_named ha s _ _
  | add _ ha hb =>
    have hra := hread _ (List.mem_append_left _ ((mem_namedReg ha).2 rfl))
    have hrb := hread _ (List.mem_append_right _ ((mem_namedReg hb).2 rfl))
    refine ⟨_, .add _ ha hb, rfl, rfl, rfl, ⟨rfl, rfl, rfl⟩, ?_⟩
    rw [hra, hrb]
    exact fun _ => reg_setReg_named ha s _ _
  | push _ h =>
    have hsp := hread 7 List.mem_cons_self
    have hr := hread _ (List.mem_cons_of_mem _ ((mem_namedReg h).2 rfl))
    obtain ⟨hmem, hreg⟩ := push _ hsp
    refine ⟨_, .push _ h, rfl, ?_⟩
    rw [decSp_reg_congr hsp hr]
    exact ⟨hmem, rfl, ⟨rfl, rfl, rfl⟩, hreg⟩
  | pop _ h hs =>
    have hsp : (s.withRegs regs').sp = s.sp := hread 7 List.mem_cons_self
    refine ⟨_, .pop _ h (hsp ▸ hs), rfl, rfl, rfl, ⟨rfl, rfl, rfl⟩, fun j hj => ?_⟩
    rw [hsp]
    refine incSp_reg_congr (reg_setReg_congr hsp _ _) ?_
    rcases List.mem_cons.1 hj with rfl | hj
    · exact reg_setReg_congr hsp _ _
    · exact reg_setReg_named h s _ _ hj
  | call _ h =>
    have hsp := hread 7 List.mem_cons_self
    have hr := hread _ (List.mem_cons_of_mem _ ((mem_namedReg h).2 rfl))
    obtain ⟨hmem, hreg⟩ := push _ hsp
    exact ⟨_, .call _ h, congrArg zext9 (decSp_reg_congr hsp hr), hmem, rfl, ⟨rfl, rfl, rfl⟩, hreg⟩
  | ret =>
    have hsp : (s.withRegs regs').sp = s.sp := hread 7 List.mem_cons_self
    refine ⟨_, .ret _, congrArg (fun v : Byte => zext9 (s.mem.read v.toNat)) hsp, rfl, rfl, ⟨rfl, rfl, rfl⟩,
      fun j hj => ?_⟩
    rw [List.mem_singleton.1 hj]
    exact incSp_reg_congr hsp hsp

/-- A fault of the handler is taken with every register file that agrees on the "read" column. -/
theorem Trapped.withRegs {i : Instr} {s : State} {e : Trap} (h : Trapped i s e) {regs' : Vector Byte 8}
    (hread : ∀ j, j ∈ readRegs i → (s.withRegs regs').reg j = s.reg j) : Trapped i (s.withRegs regs') e := by
  cases h with
  | operandA hi h => exact .operandA hi h
  | operandB hi ha h => exact .operandB hi ha h
  | underflow h hs => exact .underflow h ((hread 7 List.mem_cons_self).trans hs)

/-- Settles O49: the instruction completes in both states in the same way, or takes the same fault in both. -/
theorem registersReadAndWritten : Obligations.RegistersReadAndWritten := by
  intro i s regs' hread
  rcases exec_cases i s with ⟨t, he, hc⟩ | ⟨e, he, ht⟩
  · obtain ⟨t', hc', hpc, hmem, hout, hrun, hwritten⟩ := hc.withRegs hread
    exact ⟨t, t', he, hc'.exec_eq, hpc, hmem, hout, hrun, hc.sameRegsBut_written, hc'.sameRegsBut_written,
      .inl hwritten⟩
  · exact ⟨_, _, he, (ht.withRegs hread).exec_eq, rfl, rfl, rfl, ⟨rfl, rfl, rfl⟩, fun _ _ => rfl, fun _ _ => rfl,
      .inr ⟨e, rfl, rfl⟩⟩

/-! ### `out` (R20) -/

/-- The state with another output channel. -/
def State.withOut (s : State) (o : List Byte) : State := { s with out := o }

/-- Whatever `out` holds, a completed PRN appends one byte to it, and any other completed instruction leaves it
alone. -/
theorem Completed.out_cases {i : Instr} {s t : State} (h : Completed i s t) :
    (∃ r v, i = .prn r ∧ t.out = s.out ++ [v] ∧ ∀ o, Completed i (s.withOut o) (t.withOut (o ++ [v]))) ∨
    (t.out = s.out ∧ ∀ o, Completed i (s.withOut o) (t.withOut o)) := by
  cases h with
  | prn _ h => exact .inl ⟨_, _, rfl, rfl, fun _ => .prn _ h⟩
  | hlt => exact .inr ⟨rfl, fun _ => .hlt _⟩
  | ldi _ h v => exact .inr ⟨rfl, fun _ => .ldi _ h v⟩
  | mul _ ha hb => exact .inr ⟨rfl, fun _ => .mul _ ha hb⟩
  | add _ ha hb => exact .inr ⟨rfl, fun _ => .add _ ha hb⟩
  | push _ h => exact .inr ⟨rfl, fun _ => .push _ h⟩
  | pop _ h hs => exact .inr ⟨rfl, fun _ => .pop _ h hs⟩
  | call _ h => exact .inr ⟨rfl, fun _ => .call _ h⟩
  | ret => exact .inr ⟨rfl, fun _ => .ret _⟩

/-- The advance does not read `out`. -/
theorem advance_withOut (ir : Byte) (s : State) (o : List Byte) :
    advance ir (s.withOut o) = (advance ir s).withOut o :=
  (apply_ite (State.withOut · o) (opcodeSetsPc ir = false ∧ s.halted = false) (s.setPc _) s).symm

/-- The step of an instruction that completes with `out` holding `o` and leaves `o'` in it. -/
theorem step_withOut {i : Instr} {s t : State} {o o' : List Byte} (hr : s.runningAt i)
    (h : Completed i (s.withOut o) (t.withOut o')) :
    step (s.withOut o) = .next ((advance (Config.opcodes.opcode i.mnemonic) t).withOut o') := by
  rw [step_runningAt (s := s.withOut o) hr h.exec_eq, advance_withOut]

/-- Settles O50: a halted machine and a fault entry append nothing, and a completed instruction appends by
`Completed.out_cases`; neither R140 nor the advance reads `out`. -/
theorem outputOnlyGrowsAndIsNotRead : Obligations.OutputOnlyGrowsAndIsNotRead := by
  intro s t o hst
  have silent (hout : t.out = s.out) (hs : step (s.withOut o) = .next (t.withOut o)) :
      ∃ e : List Byte, t.out = s.out ++ e ∧ e.length ≤ 1 ∧ (e ≠ [] → ∃ r, s.runningAt (.prn r)) ∧
        step (s.withOut o) = .next (t.withOut (o ++ e)) :=
    ⟨[], by rw [List.append_nil, hout], Nat.zero_le 1, fun h => absurd rfl h, by rwa [List.append_nil]⟩
  rcases step_next_cases hst with ⟨hh, rfl⟩ | ⟨e, hh, he, rfl⟩ | ⟨i, u, -, hr, hc, rfl⟩
  · exact silent rfl (step_halted hh)
  · exact silent rfl (step_of_firstFailedCheck (s := s.withOut o) hh he)
  · rcases hc.out_cases with ⟨r, v, rfl, hout, hc'⟩ | ⟨hout, hc'⟩
    · exact ⟨[v], (advance_out ..).trans hout, le_rfl, fun _ => ⟨r, hr⟩, step_withOut hr (hc' o)⟩
    · exact silent ((advance_out ..).trans hout) (step_withOut hr (hc' o))

/-! ### `fault` and `fault_info` (R18) -/

/-- The state with other fault registers. -/
def State.withFault (s : State) (f : FaultCode) (n : PcWord) : State := { s with fault := f, faultInfo := n }

/-- A completed instruction does the same whatever the fault registers hold, and leaves them alone. -/
theorem Completed.withFault {i : Instr} {s t : State} (h : Completed i s t) (f : FaultCode) (n : PcWord) :
    Completed i (s.withFault f n) (t.withFault f n) := by
  cases h with
  | hlt => exact .hlt _
  | ldi _ h v => exact .ldi _ h v
  | prn _ h => exact .prn _ h
  | mul _ ha hb => exact .mul _ ha hb
  | add _ ha hb => exact .add _ ha hb
  | push _ h => exact .push _ h
  | pop _ h hs => exact .pop _ h hs
  | call _ h => exact .call _ h
  | ret => exact .ret _

/-- The advance does not read the fault registers. -/
theorem advance_withFault (ir : Byte) (s : State) (f : FaultCode) (n : PcWord) :
    advance ir (s.withFault f n) = (advance ir s).withFault f n :=
  (apply_ite (State.withFault · f n) (opcodeSetsPc ir = false ∧ s.halted = false) (s.setPc _) s).symm

/-- Settles O51: neither R140 nor a completed instruction nor the advance reads the fault registers, and a
halted machine answers itself. -/
theorem faultRegistersNotRead : Obligations.FaultRegistersNotRead := by
  intro s t f n hst
  refine ⟨?_, fun hh => ?_⟩
  · rcases step_next_cases hst with ⟨hh, rfl⟩ | ⟨e, hh, he, rfl⟩ | ⟨i, u, -, hr, hc, rfl⟩
    · exact ⟨_, step_halted hh, rfl, rfl, rfl, rfl, rfl⟩
    · exact ⟨_, step_of_firstFailedCheck (s := s.withFault f n) hh he, rfl, rfl, rfl, rfl, rfl⟩
    · have hs := step_runningAt (s := s.withFault f n) hr (hc.withFault f n).exec_eq
      exact ⟨_, hs.trans (congrArg _ (advance_withFault ..)), rfl, rfl, rfl, rfl, rfl⟩
  · obtain rfl := step_unique hst (step_halted hh)
    exact ⟨rfl, rfl⟩

end Sys2Proof.Machine
end
